-- ==== Sys2Proof/Word.lean ====
section
/-! DEFINITION. The word types of the STREAM-frame header decoder: a byte (00_scope.md R9, R11) and the opaque version
token (10_state.md R22). Every other number of the block is an exact natural (00_scope.md R10). -/

namespace Sys2Proof

/-- A byte; bit 0 is its least significant bit (R9). -/
abbrev Byte := BitVec 8

/-- A version token: opaque, compared for equality only (R22, D29). Its width `VER_BITS` is an OPEN parameter (R8), so a
token is a natural and `Config.verBits` says which naturals a port can carry. -/
abbrev Version := Nat

end Sys2Proof
end

