-- ==== Sys2Proof/Config.lean ====
section
/-! DEFINITION. The parameters a model takes (00_scope.md R8): layout records (30_encoding.md R66), policies (R73, R74) and
port widths. The values the spec gives as defaults are in Machine/Layouts.lean. -/

namespace Sys2Proof

/-- The byte order of a layout's multi-byte fields (20_memory.md R43). -/
inductive ByteOrder where
  /-- least-significant byte first -/
  | le
  /-- most-significant byte first -/
  | be
  deriving DecidableEq, Repr

/-- `MARKER_POLICY` and `RESERVED_POLICY` (R8, R73, R74). -/
inductive Policy where
  /-- a mismatch raises the model fault of R73 or R74 -/
  | fault
  /-- the bits are ignored -/
  | ignore
  deriving DecidableEq, Repr

/-- The closed set of layout variants (43_dispatch.md R178). -/
inductive Layout where
  /-- Legacy-LE -/
  | lle
  /-- Legacy-BE -/
  | lbe
  /-- Modern -/
  | mod
  deriving DecidableEq, Repr

/-- A layout record (R66). The explicit length field's width is fixed (R72) and is no field of the record. -/
structure LayoutSpec where
  /-- byte order of every multi-byte field -/
  order : ByteOrder
  /-- position of `F` in the type byte -/
  finBit : Fin 8
  /-- position of `D` in the type byte -/
  dlenBit : Fin 8
  /-- lowest bit of the stream-id selector `SS` -/
  sidLo : Nat
  /-- bit count of `SS` -/
  sidN : Nat
  /-- lowest bit of the offset selector `OO` -/
  offLo : Nat
  /-- bit count of `OO` -/
  offN : Nat
  /-- byte widths indexed by `SS` -/
  sidTab : List Nat
  /-- byte widths indexed by `OO` -/
  offTab : List Nat
  /-- bits that identify a STREAM frame -/
  markerMask : Byte
  /-- their required value -/
  markerVal : Byte
  /-- reserved bits -/
  reservedMask : Byte
  deriving DecidableEq, Repr

/-- The model's parameters (R8): configuration, not state (10_state.md R21). -/
structure Config where
  /-- `REM_BITS`, the width of `rem` and of `bytes_consumed` -/
  remBits : Nat
  /-- `VER_BITS`, the width of a version token -/
  verBits : Nat
  /-- `LAYOUT_LLE` -/
  lle : LayoutSpec
  /-- `LAYOUT_LBE` -/
  lbe : LayoutSpec
  /-- `LAYOUT_MOD` -/
  mod : LayoutSpec
  /-- `MARKER_POLICY` -/
  markerPolicy : Policy
  /-- `RESERVED_POLICY` -/
  reservedPolicy : Policy
  deriving DecidableEq, Repr

/-- The layout record the configuration gives a layout (R8). -/
def Config.spec (c : Config) : Layout → LayoutSpec
  | .lle => c.lle
  | .lbe => c.lbe
  | .mod => c.mod

/-- `DL_BITS = max(16, REM_BITS)`, the width of `data_length` (R8, D13). -/
def Config.dlBits (c : Config) : Nat := max 16 c.remBits

end Sys2Proof
end

