-- ==== Sys2Proof/Syntax.lean ====
section
/-! DEFINITION. The instructions: one constructor per row of spec/opcode_table.json. A decoder-word form carries the bits of
its pattern that the row leaves free (30_encoding.md R77), a codec form its byte count (R78), a port command its operands
(43_dispatch.md R170, R172, R174). The remaining operands (`rem`, `buf`, the codec's bytes or value) are on the request
port (10_state.md R23), in State. -/

namespace Sys2Proof

/-- One row of the opcode table each. `m`: marker bit, `f`: FIN, `oo`: offset selector, `ss`: stream-id selector, `r`:
reserved bit, `pp`: Modern prefix, `n`: byte count. -/
inductive Instr where
  /-- `DEC.LLE.X`, `00mF1OOSSr`: Legacy-LE, explicit length (R77, R121) -/
  | decLleX (m f : Bool) (oo ss : BitVec 2) (r : Bool)
  /-- `DEC.LLE.I`, `00m10OOSSr`: Legacy-LE, inferred length, FIN = 1 (R77, R121) -/
  | decLleI (m : Bool) (oo ss : BitVec 2) (r : Bool)
  /-- `ILL.LLE.AMBIG`, `00m00OOSSr`: Legacy-LE, D = 0 and F = 0 (R75, R77, R152) -/
  | illLleAmbig (m : Bool) (oo ss : BitVec 2) (r : Bool)
  /-- `DEC.LBE.X`, `01mF1OOSSr`: Legacy-BE, explicit length (R77, R122) -/
  | decLbeX (m f : Bool) (oo ss : BitVec 2) (r : Bool)
  /-- `DEC.LBE.I`, `01m10OOSSr`: Legacy-BE, inferred length, FIN = 1 (R77, R122) -/
  | decLbeI (m : Bool) (oo ss : BitVec 2) (r : Bool)
  /-- `ILL.LBE.AMBIG`, `01m00OOSSr`: Legacy-BE, D = 0 and F = 0 (R75, R77, R152) -/
  | illLbeAmbig (m : Bool) (oo ss : BitVec 2) (r : Bool)
  /-- `DEC.MOD.X`, `10ppFSSOO1`: Modern, explicit length (R77, R123) -/
  | decModX (pp : BitVec 2) (f : Bool) (ss oo : BitVec 2)
  /-- `DEC.MOD.I`, `10pp1SSOO0`: Modern, inferred length, FIN = 1 (R77, R123) -/
  | decModI (pp ss oo : BitVec 2)
  /-- `ILL.MOD.AMBIG`, `10pp0SSOO0`: Modern, D = 0 and F = 0 (R75, R77, R152) -/
  | illModAmbig (pp ss oo : BitVec 2)
  /-- `RSV.LAYOUT3`, `11xxxxxxxx`: the reserved layout code (R76, R77) -/
  | rsvLayout3 (x : BitVec 8)
  /-- `FW.RD.LE`, `00nnnn`: little-endian codec read (R78, R101) -/
  | fwRdLe (n : BitVec 4)
  /-- `FW.RD.BE`, `01nnnn`: big-endian codec read (R78, R102) -/
  | fwRdBe (n : BitVec 4)
  /-- `FW.WR.LE`, `10nnnn`: little-endian codec write (R78, R105) -/
  | fwWrLe (n : BitVec 4)
  /-- `FW.WR.BE`, `11nnnn`: big-endian codec write (R78, R106) -/
  | fwWrBe (n : BitVec 4)
  /-- `SEL`: look up a version's layout (R170) -/
  | sel (version : Version)
  /-- `TBL.INIT`: build the dispatch table from `DISPATCH` (R172) -/
  | tblInit (dispatch : List (Version × Layout))
  /-- `DECODE`: the top-level request (R174) -/
  | decode (version : Version)
  deriving DecidableEq, Repr

end Sys2Proof
end

