-- ==== Sys2Proof/Decode.lean ====
section
/-! DEFINITION. The opcode map read as a table of masks and patterns (30_encoding.md R77, R78), the decoder over it, and the
encoder written from the same patterns. A port command has no bit pattern (R79): it stands for itself. -/

namespace Sys2Proof

/-- What reaches the block's decoder: a 10-bit decoder word (R77), a 6-bit codec control word (R78), or a port command
with its operands, selected by which port is driven (R79). -/
inductive PortWord where
  /-- {layout code, type byte} (R77) -/
  | decoder (w : BitVec 10)
  /-- {dir, order, n} (R78) -/
  | codec (c : BitVec 6)
  /-- SEL (R170) -/
  | sel (version : Version)
  /-- TBL.INIT (R172) -/
  | tblInit (dispatch : List (Version × Layout))
  /-- DECODE (R174) -/
  | decode (version : Version)
  deriving DecidableEq, Repr

/-- Why bits are no instruction. Safe: nothing runs. -/
inductive DecodeError where
  /-- no row of the decoder-word table matches; R77 says this never happens -/
  | noDecoderRow (w : BitVec 10)
  /-- no row of the codec table matches; R78 says this never happens -/
  | noCodecRow (c : BitVec 6)
  /-- a bit is set above the word's 10 or 6 bits -/
  | bitsAboveWord (bytes : List Byte)
  /-- neither one byte (a codec control word) nor two (a decoder word) -/
  | badWordSize (bytes : List Byte)
  deriving DecidableEq, Repr

/-! ### Bit fields of the words (R9, R67, R69) -/

/-- The Legacy type byte `mFDOOSSr` (R67). -/
def legacyByte (m f d : Bool) (oo ss : BitVec 2) (r : Bool) : Byte :=
  BitVec.ofBool m ++ BitVec.ofBool f ++ BitVec.ofBool d ++ oo ++ ss ++ BitVec.ofBool r

/-- The Modern type byte `ppFSSOOD` (R69). -/
def modernByte (pp : BitVec 2) (f : Bool) (ss oo : BitVec 2) (d : Bool) : Byte :=
  pp ++ BitVec.ofBool f ++ ss ++ oo ++ BitVec.ofBool d

/-- The decoder word `layout_code << 8 | t` (R77). -/
def decoderWord (code : BitVec 2) (t : Byte) : BitVec 10 := code ++ t

/-- The codec control word `dir << 5 | order << 4 | n` (R78). -/
def codecWord (dir order : Bool) (n : BitVec 4) : BitVec 6 := BitVec.ofBool dir ++ BitVec.ofBool order ++ n

/-! ### The table -/

/-- A row of the opcode map over words of `k` bits: it matches `w` when `w &&& mask = pattern` (R77). -/
structure Row (k : Nat) where
  /-- the mnemonic of spec/opcode_table.json -/
  mnemonic : String
  /-- which bits the row fixes -/
  mask : BitVec k
  /-- their values -/
  pattern : BitVec k
  /-- the instruction read from a matching word -/
  read : BitVec k → Instr

/-- `(w & mask) == match` (R77). -/
def Row.fits {k : Nat} (row : Row k) (w : BitVec k) : Bool := w &&& row.mask == row.pattern

/-- The ten decoder-word rows (R77). -/
def decoderRows : List (Row 10) :=
  [{ mnemonic := "DEC.LLE.X", mask := 0x320, pattern := 0x020,
     read := fun w => .decLleX (w.getLsbD 7) (w.getLsbD 6) (w.extractLsb' 3 2) (w.extractLsb' 1 2) (w.getLsbD 0) },
   { mnemonic := "DEC.LLE.I", mask := 0x360, pattern := 0x040,
     read := fun w => .decLleI (w.getLsbD 7) (w.extractLsb' 3 2) (w.extractLsb' 1 2) (w.getLsbD 0) },
   { mnemonic := "ILL.LLE.AMBIG", mask := 0x360, pattern := 0x000,
     read := fun w => .illLleAmbig (w.getLsbD 7) (w.extractLsb' 3 2) (w.extractLsb' 1 2) (w.getLsbD 0) },
   { mnemonic := "DEC.LBE.X", mask := 0x320, pattern := 0x120,
     read := fun w => .decLbeX (w.getLsbD 7) (w.getLsbD 6) (w.extractLsb' 3 2) (w.extractLsb' 1 2) (w.getLsbD 0) },
   { mnemonic := "DEC.LBE.I", mask := 0x360, pattern := 0x140,
     read := fun w => .decLbeI (w.getLsbD 7) (w.extractLsb' 3 2) (w.extractLsb' 1 2) (w.getLsbD 0) },
   { mnemonic := "ILL.LBE.AMBIG", mask := 0x360, pattern := 0x100,
     read := fun w => .illLbeAmbig (w.getLsbD 7) (w.extractLsb' 3 2) (w.extractLsb' 1 2) (w.getLsbD 0) }] ++
  [{ mnemonic := "DEC.MOD.X", mask := 0x301, pattern := 0x201,
     read := fun w => .decModX (w.extractLsb' 6 2) (w.getLsbD 5) (w.extractLsb' 3 2) (w.extractLsb' 1 2) },
   { mnemonic := "DEC.MOD.I", mask := 0x321, pattern := 0x220,
     read := fun w => .decModI (w.extractLsb' 6 2) (w.extractLsb' 3 2) (w.extractLsb' 1 2) },
   { mnemonic := "ILL.MOD.AMBIG", mask := 0x321, pattern := 0x200,
     read := fun w => .illModAmbig (w.extractLsb' 6 2) (w.extractLsb' 3 2) (w.extractLsb' 1 2) },
   { mnemonic := "RSV.LAYOUT3", mask := 0x300, pattern := 0x300,
     read := fun w => .rsvLayout3 (w.extractLsb' 0 8) }]

/-- The four codec control-word rows (R78). -/
def codecRows : List (Row 6) :=
  [{ mnemonic := "FW.RD.LE", mask := 0x30, pattern := 0x00, read := fun c => .fwRdLe (c.extractLsb' 0 4) },
   { mnemonic := "FW.RD.BE", mask := 0x30, pattern := 0x10, read := fun c => .fwRdBe (c.extractLsb' 0 4) },
   { mnemonic := "FW.WR.LE", mask := 0x30, pattern := 0x20, read := fun c => .fwWrLe (c.extractLsb' 0 4) },
   { mnemonic := "FW.WR.BE", mask := 0x30, pattern := 0x30, read := fun c => .fwWrBe (c.extractLsb' 0 4) }]

/-- The instruction of the first row that a word fits. -/
def readRows {k : Nat} (rows : List (Row k)) (w : BitVec k) : Option Instr :=
  (rows.find? fun row => row.fits w).map fun row => row.read w

/-- The decoder (R77, R78, R79). -/
def decode : PortWord → Except DecodeError Instr
  | .decoder w => match readRows decoderRows w with
    | some i => .ok i
    | none => .error (.noDecoderRow w)
  | .codec c => match readRows codecRows c with
    | some i => .ok i
    | none => .error (.noCodecRow c)
  | .sel v => .ok (.sel v)
  | .tblInit d => .ok (.tblInit d)
  | .decode v => .ok (.decode v)

/-- The encoder, from the patterns of R77 and the control word of R78. -/
def encode : Instr → PortWord
  | .decLleX m f oo ss r => .decoder (decoderWord 0b00 (legacyByte m f true oo ss r))
  | .decLleI m oo ss r => .decoder (decoderWord 0b00 (legacyByte m true false oo ss r))
  | .illLleAmbig m oo ss r => .decoder (decoderWord 0b00 (legacyByte m false false oo ss r))
  | .decLbeX m f oo ss r => .decoder (decoderWord 0b01 (legacyByte m f true oo ss r))
  | .decLbeI m oo ss r => .decoder (decoderWord 0b01 (legacyByte m true false oo ss r))
  | .illLbeAmbig m oo ss r => .decoder (decoderWord 0b01 (legacyByte m false false oo ss r))
  | .decModX pp f ss oo => .decoder (decoderWord 0b10 (modernByte pp f ss oo true))
  | .decModI pp ss oo => .decoder (decoderWord 0b10 (modernByte pp true ss oo false))
  | .illModAmbig pp ss oo => .decoder (decoderWord 0b10 (modernByte pp false ss oo false))
  | .rsvLayout3 x => .decoder (decoderWord 0b11 x)
  | .fwRdLe n => .codec (codecWord false false n)
  | .fwRdBe n => .codec (codecWord false true n)
  | .fwWrLe n => .codec (codecWord true false n)
  | .fwWrBe n => .codec (codecWord true true n)
  | .sel v => .sel v
  | .tblInit d => .tblInit d
  | .decode v => .decode v

/-! ### Words given as bytes

The spec stores no word in memory. The model lays a word out least-significant byte first: a decoder word is its type byte
and then its layout code, a codec control word is one byte (log entry 3). -/

/-- The word that one or two bytes hold. -/
def portWordOfBytes (bytes : List Byte) : Except DecodeError PortWord :=
  match bytes with
  | [b] => if b.toNat < 64 then .ok (.codec (b.setWidth 6)) else .error (.bitsAboveWord bytes)
  | [t, b] => if b.toNat < 4 then .ok (.decoder (decoderWord (b.setWidth 2) t)) else .error (.bitsAboveWord bytes)
  | _ => .error (.badWordSize bytes)

/-- The decoder on bytes: total, rejecting by name. -/
def decodeBytes (bytes : List Byte) : Except DecodeError Instr :=
  (portWordOfBytes bytes).bind decode

/-- The `k` bytes of a number, least-significant first. -/
def tableBytes (k w : Nat) : List Byte := (List.range k).map fun i => BitVec.ofNat 8 (w / 256 ^ i)

/-- The instruction the decoder reads from an instruction whose bits are `w`, over `nbits` bits in whole bytes. -/
def decodeTableWord (nbits w : Nat) : Option Instr :=
  (decodeBytes (tableBytes ((nbits + 7) / 8) w)).toOption

end Sys2Proof
end

