-- ==== Sys2Proof/Machine/Layouts.lean ====
section
/-! DEFINITION. The default values of the layout records, the policies and the configuration (30_encoding.md R67 to R74).
They are decisions of the spec (D2 to D7) and parameters of the model: a state carries its own configuration. -/

namespace Sys2Proof.Machine

/-- The Legacy stream-id width table (R70). -/
def legacySidTab : List Nat := [1, 2, 4, 8]

/-- The Legacy offset width table (R70). -/
def legacyOffTab : List Nat := [0, 2, 4, 8]

/-- The Modern stream-id width table (R71). -/
def modernSidTab : List Nat := [0, 1, 2, 4]

/-- The Modern offset width table, `W_OFF_MODERN` (R71, D5). -/
def modernOffTab : List Nat := [0, 2, 4, 8]

/-- `LAYOUT_LLE`, type byte `mFDOOSSr` (R67). -/
def layoutLle : LayoutSpec where
  order := .le
  finBit := 6
  dlenBit := 5
  sidLo := 1
  sidN := 2
  offLo := 3
  offN := 2
  sidTab := legacySidTab
  offTab := legacyOffTab
  markerMask := 0x80
  markerVal := 0x80
  reservedMask := 0x01

/-- `LAYOUT_LBE` is `LAYOUT_LLE` with `order = BE` (R68). -/
def layoutLbe : LayoutSpec := { layoutLle with order := .be }

/-- `LAYOUT_MOD`, type byte `ppFSSOOD` (R69). -/
def layoutMod : LayoutSpec where
  order := .be
  finBit := 5
  dlenBit := 0
  sidLo := 3
  sidN := 2
  offLo := 1
  offN := 2
  sidTab := modernSidTab
  offTab := modernOffTab
  markerMask := 0xC0
  markerVal := 0xC0
  reservedMask := 0x00

/-- The default layout records and policies over given port widths (R8). -/
def configOf (remBits verBits : Nat) : Config where
  remBits := remBits
  verBits := verBits
  lle := layoutLle
  lbe := layoutLbe
  mod := layoutMod
  markerPolicy := .fault
  reservedPolicy := .fault

/-- The configuration `State.reset` carries. DESIGN CHOICE: `REM_BITS` and `VER_BITS` are OPEN (R8); 32 each, log entry 9. -/
def defaultConfig : Config := configOf 32 32

end Sys2Proof.Machine
end

