-- ==== Sys2Proof/Machine/State.lean ====
section
/-! DEFINITION. The state: the two items of persistent state (10_state.md R21), the request and response ports (R23, R24),
the requests in flight (60_exceptions.md R212), the recorded model faults (R201), and the parameters (00_scope.md R8). -/

namespace Sys2Proof.Machine

/-- A byte-addressed snapshot: strictly rising addresses, no entry equal to what an unlisted address reads as
(20_memory.md R47). -/
abbrev Memory := List Host.Cell

/-- The dispatch table `DT`: a partial map from version token to 2-bit layout code (10_state.md R22). -/
abbrev Table := List (Version × BitVec 2)

/-- Which command drives the request port (30_encoding.md R79, R83). -/
inductive Command where
  /-- decode `buf` under the layout of this code: `DEC.LLE`, `DEC.LBE`, `DEC.MOD` of R83, or the reserved code -/
  | header (code : BitVec 2)
  /-- a codec operation given by its control word (R78) -/
  | codec (c : BitVec 6)
  /-- SEL (R170) -/
  | sel (version : Version)
  /-- TBL.INIT (R172) -/
  | tblInit (dispatch : List (Version × Layout))
  /-- DECODE (R174) -/
  | decode (version : Version)
  deriving DecidableEq, Repr

/-- The request port (R23): the command driven, if any, and its operands. -/
structure Request where
  /-- the command driven; none when no request is on the port -/
  command : Option Command
  /-- `rem`, REM_BITS bits: bytes from the start of `buf` to the end of the packet -/
  rem : Nat
  /-- the request buffer, readable at indices below `rem` (R40) -/
  buf : Memory
  /-- the byte sequence given to a codec read, index 0 first (R101, R102) -/
  codecBytes : Memory
  /-- the value given to a codec write (R105, R106) -/
  codecValue : Nat
  deriving DecidableEq, Repr

/-- The non-owning handle `source_reference` (R25, 20_memory.md R52). -/
inductive Handle where
  /-- `NULL` -/
  | null
  /-- a packet buffer; the block never produces one -/
  | buffer (index : Nat)
  deriving DecidableEq, Repr

/-- The frame record (R25). -/
structure FrameRecord where
  /-- zero-extended to 64 bits -/
  streamId : BitVec 64
  /-- byte offset within the stream -/
  dataOffset : BitVec 64
  /-- payload bytes after the header, DL_BITS bits -/
  dataLength : Nat
  /-- the FIN bit -/
  fin : Bool
  /-- always 0 -/
  readOffset : BitVec 64
  /-- always `NULL` -/
  sourceReference : Handle
  deriving DecidableEq, Repr

/-- The decode failures (60_exceptions.md R200). -/
inductive FailKind where
  /-- `TRUNC_HDR` -/
  | truncHdr
  /-- `TRUNC_PAYLOAD` -/
  | truncPayload
  /-- `AMBIG_LEN` -/
  | ambigLen
  deriving DecidableEq, Repr

/-- What a request's response carries. A failure carries its kind and no record (R203). -/
inductive Response where
  /-- `Ok(record, bytes_consumed)` (R12, R24) -/
  | ok (record : FrameRecord) (consumed : Nat)
  /-- `Fail(kind)` (R200) -/
  | fail (kind : FailKind)
  /-- SEL's layout code (R170) -/
  | layout (code : BitVec 2)
  /-- a codec read's value (R101, R102) -/
  | value (v : BitVec 64)
  /-- a codec write's bytes (R105, R106) -/
  | bytes (bs : List Byte)
  deriving DecidableEq, Repr

/-- The model faults of R201, each with the value it records. They do not stop the machine: see `State.raiseFault`. -/
inductive ModelFault where
  /-- `F_NOT_INITIALISED`: a lookup before TBL.INIT (R176) -/
  | notInitialised
  /-- `F_UNSUPPORTED_VERSION`: no entry for the token (R171) -/
  | unsupportedVersion (version : Version)
  /-- `F_TABLE_LOCKED`: a second TBL.INIT (R173) -/
  | tableLocked
  /-- `F_NOT_STREAM`: the marker bits do not match (R73) -/
  | notStream (t : Byte)
  /-- `F_RESERVED_BIT`: a reserved bit is set (R74) -/
  | reservedBit (t : Byte)
  /-- `F_BAD_LAYOUT`: layout code 0b11 (R76) -/
  | badLayout
  /-- `F_BAD_WIDTH`: a codec count above 8 (R107) -/
  | badWidth (n : Nat)
  /-- `F_ENC_RANGE`: a write value too large for its width (R105, R106) -/
  | encRange (v n : Nat)
  deriving DecidableEq, Repr

/-- What stops the model. None is a fault of the spec, and no step from a well-formed state ends in one. -/
inductive Fault where
  /-- raised by the buffer read (`memRead`) at an index outside the window `0 .. rem-1`, which the spec says the block never
  reads (20_memory.md R42); safe -/
  | outsideWindow (index count : Nat)
  /-- raised by a layout decoder whose width table has no entry for a selector, a record R66 excludes; safe -/
  | noWidthEntry
  /-- raised by the step on a word that no opcode row matches; R77 and R78 say there is none; safe -/
  | noOpcodeRow
  deriving DecidableEq, Repr

/-- Why an instruction has no meaning. -/
inductive Refusal where
  /-- raised by an arm of `exec` whose instruction has no meaning yet; no arm is left so; safe -/
  | notModelled (mnemonic : String)
  deriving DecidableEq, Repr

/-- How a request ends other than with a value (00_scope.md R12). -/
inductive Ending where
  /-- `fail K`: a decode failure, which is a response -/
  | fail (kind : FailKind)
  /-- `raise Fault(info)`: a model fault -/
  | raise (fault : ModelFault)
  /-- the model stops -/
  | stop (fault : Fault)
  deriving DecidableEq, Repr

/-- The state of the machine. -/
structure State where
  /-- the parameters; the model's own field, which no step changes -/
  config : Config
  /-- `table_ready` (R21, R30) -/
  tableReady : Bool
  /-- `DT` (R22, R30) -/
  dt : Table
  /-- the request port (R23) -/
  port : Request
  /-- the requests in flight behind it, oldest first (R54, R212) -/
  waiting : List Request
  /-- the response port (R24); none when no response is pending (R34) -/
  response : Option Response
  /-- the model faults recorded, newest first, never cleared (R201) -/
  faults : List ModelFault
  deriving DecidableEq, Repr

/-- No request on the port. DESIGN CHOICE: the operand values at reset, log entry 8. -/
def Request.idle : Request where
  command := none
  rem := 0
  buf := []
  codecBytes := []
  codecValue := 0

/-- The state after power-on reset for given parameters and given contents of `DT`, which the spec leaves unspecified
(R34, 70_reset_and_hazards.md R230). -/
def State.resetWith (config : Config) (dt : Table) : State where
  config := config
  tableReady := false
  dt := dt
  port := Request.idle
  waiting := []
  response := none
  faults := []

/-- The machine right after reset. DESIGN CHOICE: `DT` empty, log entry 7, and the OPEN widths, log entry 9. -/
def State.reset : State := State.resetWith defaultConfig []

end Sys2Proof.Machine
end

