-- ==== Sys2Proof/Machine/Flags.lean ====
section
/-! DEFINITION. The block's two flags, which live only within one request (10_state.md R28), and the response port's status
code (60_exceptions.md R200). There are no condition codes (R29). -/

namespace Sys2Proof.Machine

/-- `F`, the FIN flag of a type byte under a layout record (R28, R66). -/
def finFlag (L : LayoutSpec) (t : Byte) : Bool := t.getLsbD L.finBit

/-- `D`, the explicit-length-present flag (R28, R66). -/
def dlenFlag (L : LayoutSpec) (t : Byte) : Bool := t.getLsbD L.dlenBit

/-- The numeric code of a decode failure (R200). -/
def FailKind.code : FailKind → BitVec 2
  | .truncHdr => 1
  | .truncPayload => 2
  | .ambigLen => 3

/-- The `status` port of a decode response, 0 on success (R24, R200). SEL and the codec drive no status. -/
def Response.status : Response → Option (BitVec 2)
  | .ok _ _ => some 0
  | .fail k => some (FailKind.code k)
  | .layout _ => none
  | .value _ => none
  | .bytes _ => none

end Sys2Proof.Machine
end

