-- ==== Sys2Proof/Machine/Operands.lean ====
section
/-! DEFINITION. What a type byte says under a layout record: selectors, widths, header length, and the marker and reserved
checks (30_encoding.md R61, R63, R66, R73, R74, R80); and the layout codes (R76). -/

namespace Sys2Proof.Machine

/-- `t[lo+n-1 : lo]` (00_scope.md R9). -/
def bitField (t : Byte) (lo n : Nat) : Nat := t.toNat / 2 ^ lo % 2 ^ n

/-- The stream-id selector `SS` (R66). -/
def sidSelector (L : LayoutSpec) (t : Byte) : Nat := bitField t L.sidLo L.sidN

/-- The offset selector `OO` (R66). -/
def offSelector (L : LayoutSpec) (t : Byte) : Nat := bitField t L.offLo L.offN

/-- `ws = sid_tab[SS]` (R66). -/
def sidWidth (L : LayoutSpec) (t : Byte) : Option Nat := L.sidTab[sidSelector L t]?

/-- `wo = off_tab[OO]` (R66). -/
def offWidth (L : LayoutSpec) (t : Byte) : Option Nat := L.offTab[offSelector L t]?

/-- The explicit length field's width, in every layout (R72). -/
def lengthWidth : Nat := 2

/-- `hdr = 1 + ws + wo + 2*D` (R61, R80). -/
def headerLength (ws wo : Nat) (d : Bool) : Nat := 1 + ws + wo + if d then lengthWidth else 0

/-- The marker check of R73 fails: the bits do not match and the policy says `fault`. -/
def markerFaults (c : Config) (L : LayoutSpec) (t : Byte) : Bool :=
  decide (c.markerPolicy = .fault) && decide (t &&& L.markerMask ≠ L.markerVal)

/-- The reserved-bit check of R74 fails: a reserved bit is set and the policy says `fault`. -/
def reservedFaults (c : Config) (L : LayoutSpec) (t : Byte) : Bool :=
  decide (c.reservedPolicy = .fault) && decide (t &&& L.reservedMask ≠ 0)

/-- The layout code (R76). -/
def layoutCode : Layout → BitVec 2
  | .lle => 0b00
  | .lbe => 0b01
  | .mod => 0b10

/-- The layout a code names; none for the reserved code 0b11 (R76). -/
def layoutOfCode (code : BitVec 2) : Option Layout :=
  if code = 0b00 then some .lle
  else if code = 0b01 then some .lbe
  else if code = 0b10 then some .mod
  else none

end Sys2Proof.Machine
end

