-- ==== Sys2Proof/Machine/Ops.lean ====
section
/-! DEFINITION. The named operations over State: the buffer, the dispatch table, how a request ends (a response, or taking a
model fault), the next request, power-on reset. -/

namespace Sys2Proof.Machine

/-! ### The buffer (20_memory.md) -/

/-- What an unlisted address reads as. DESIGN CHOICE: a snapshot is a total function (R47), of which the list holds the bytes
that are not 0x00; log entry 5. -/
def blankByte : Byte := 0

/-- `buf[a]` (00_scope.md R11). -/
def Memory.read : Memory → Nat → Byte
  | [], _ => blankByte
  | (k, b) :: m, a => if k = a then b else Memory.read m a

/-- The snapshot with one byte changed: used where a caller's buffer is laid out, never by the block (R41). -/
def Memory.write : Memory → Nat → Byte → Memory
  | [], a, b => if b = blankByte then [] else [(a, b)]
  | (k, c) :: m, a, b =>
    if a < k then (if b = blankByte then (k, c) :: m else (a, b) :: (k, c) :: m)
    else if a = k then (if b = blankByte then m else (a, b) :: m)
    else (k, c) :: Memory.write m a b

/-- Addresses from `lo` on rise strictly and no entry is the blank byte. -/
def Memory.wfFrom : Nat → Memory → Bool
  | _, [] => true
  | lo, (k, b) :: m => decide (lo ≤ k) && decide (b ≠ blankByte) && Memory.wfFrom (k + 1) m

/-- The canonical form. -/
def Memory.wf (m : Memory) : Bool := Memory.wfFrom 0 m

/-- `[buf[i] ... buf[i+n-1]]` (R11). -/
def Memory.readN (m : Memory) (i n : Nat) : List Byte := (List.range n).map fun k => Memory.read m (i + k)

/-- A byte sequence written at an index. -/
def Memory.writeN : Memory → Nat → List Byte → Memory
  | m, _, [] => m
  | m, i, b :: bs => Memory.writeN (Memory.write m i b) (i + 1) bs

/-- The snapshot that holds a byte sequence from index 0 (R83). -/
def Memory.ofBytes (bs : List Byte) : Memory := Memory.writeN [] 0 bs

/-- `MemRead(buf, i, n)`, the block's only memory primitive (R11), which reads inside the window only (R42): a read outside
it stops the model. -/
def memRead (q : Request) (i n : Nat) : Except Ending (List Byte) :=
  if i + n ≤ q.rem then .ok (Memory.readN q.buf i n) else .error (.stop (.outsideWindow i n))

/-! ### The dispatch table (10_state.md R22, 43_dispatch.md) -/

/-- `DT[v]`, if `v` has an entry. -/
def Table.lookup : Table → Version → Option (BitVec 2)
  | [], _ => none
  | (u, code) :: t, v => if u = v then some code else Table.lookup t v

/-- `DT[v] <- code`. -/
def Table.set : Table → Version → BitVec 2 → Table
  | [], v, code => [(v, code)]
  | (u, c) :: t, v, code => if u = v then (u, code) :: t else (u, c) :: Table.set t v code

/-- `for each (v, L) in DISPATCH: DT[v] <- code(L)`, every other token without an entry (R172). -/
def Table.build (dispatch : List (Version × Layout)) : Table :=
  dispatch.foldl (fun t p => Table.set t p.1 (layoutCode p.2)) []

/-- Each token at most once, and no entry holds the reserved code 0b11 (R22). -/
def Table.wf (t : Table) : Bool := decide (t.map Prod.fst).Nodup && t.all fun p => decide (p.2 ≠ 0b11)

/-! ### How a request ends (00_scope.md R12) -/

/-- The request ends with a response (10_state.md R24). -/
def State.respond (s : State) (r : Response) : State := { s with response := some r }

/-- TAKING A MODEL FAULT (60_exceptions.md R201): the fault is recorded with its value and never cleared, the request ends with
no response, and everything else stays: no state is saved, no mode changes, no control moves (R205). There is no return
from it (R206): the next request runs as if it had not happened. Log entry 1. -/
def State.raiseFault (s : State) (f : ModelFault) : State := { s with response := none, faults := f :: s.faults }

/-- A request's end as an outcome of the step. -/
def State.finish (s : State) (e : Except Ending Response) : Host.Outcome State Fault Refusal :=
  match e with
  | .ok r => .next (s.respond r)
  | .error (.fail k) => .next (s.respond (.fail k))
  | .error (.raise f) => .next (s.raiseFault f)
  | .error (.stop f) => .fault f

/-- TBL.INIT's writes: the table and `table_ready <- 1` (43_dispatch.md R172). It gives no response. -/
def State.setTable (s : State) (t : Table) : State := { s with tableReady := true, dt := t, response := none }

/-- The request on the port is over; the oldest waiting one takes its place (DESIGN CHOICE: the order, log entry 4). With none
waiting only the command goes: `rem`, `buf` and the codec's operands stay on the port, undriven (DESIGN CHOICE: the spec says
nothing of the port then, log entry 22). -/
def State.retire (s : State) : State :=
  match s.waiting with
  | [] => { s with port := { s.port with command := none } }
  | q :: qs => { s with port := q, waiting := qs }

/-- Power-on reset of a running machine (70_reset_and_hazards.md R230): not ready, nothing in flight, nothing pending, and `DT`
whatever the caller of this function says, since its contents are unspecified. The faults the model has recorded stay (R201).
Reset comes from outside the block; no step takes it. -/
def State.powerOn (s : State) (anyTable : Table) : State :=
  { State.resetWith s.config anyTable with faults := s.faults }

end Sys2Proof.Machine
end

