-- ==== Sys2Proof/Machine/Codec.lean ====
section
/-! DEFINITION. The Field-Width Codec (40_field_width_codec.md): the reads every layout decoder uses, the writes of the
reference encoder, and the four codec instructions. -/

namespace Sys2Proof.Machine

/-- `sum over k of b[k] * 256^k`, the first byte given weighing `256^k` (R101). -/
def leValueFrom : Nat → List Byte → Nat
  | _, [] => 0
  | k, b :: bs => b.toNat * 256 ^ k + leValueFrom (k + 1) bs

/-- The value of a little-endian byte sequence (R101). -/
def leValue (bs : List Byte) : Nat := leValueFrom 0 bs

/-- The value of a big-endian byte sequence: `v <- v * 256 + b[k]` (R102). -/
def beValue (bs : List Byte) : Nat := bs.foldl (fun v b => v * 256 + b.toNat) 0

/-- The value of a byte sequence in a byte order (20_memory.md R43). -/
def fieldValue : ByteOrder → List Byte → Nat
  | .le => leValue
  | .be => beValue

/-- `FW.RD.<order>(b, n)` (R101, R102). -/
def codecRead (order : ByteOrder) (b : List Byte) (n : Nat) : Except Ending (BitVec 64) :=
  if n > 8 then .error (.raise (.badWidth n)) else .ok (BitVec.ofNat 64 (fieldValue order b))

/-- `[ (v / 256^k) mod 256 for k in 0 .. n-1 ]` (R105). -/
def leBytes (v n : Nat) : List Byte := (List.range n).map fun k => BitVec.ofNat 8 (v / 256 ^ k % 256)

/-- `[ (v / 256^(n-1-k)) mod 256 for k in 0 .. n-1 ]` (R106). -/
def beBytes (v n : Nat) : List Byte := (List.range n).map fun k => BitVec.ofNat 8 (v / 256 ^ (n - 1 - k) % 256)

/-- The bytes of a value in a byte order. -/
def fieldBytes : ByteOrder → Nat → Nat → List Byte
  | .le => leBytes
  | .be => beBytes

/-- `FW.WR.<order>(v, n)` (R105, R106). -/
def codecWrite (order : ByteOrder) (v n : Nat) : Except Ending (List Byte) :=
  if n > 8 then .error (.raise (.badWidth n))
  else if v ≥ 256 ^ n then .error (.raise (.encRange v n))
  else .ok (fieldBytes order v n)

/-- A codec read instruction: the count's bytes of the sequence given on the port (R83, log entry 6). -/
def codecReadOp (order : ByteOrder) (n : BitVec 4) (s : State) : Host.Outcome State Fault Refusal :=
  s.finish ((codecRead order (Memory.readN s.port.codecBytes 0 n.toNat) n.toNat).map .value)

/-- A codec write instruction on the value given on the port (R83, log entry 6). -/
def codecWriteOp (order : ByteOrder) (n : BitVec 4) (s : State) : Host.Outcome State Fault Refusal :=
  s.finish ((codecWrite order s.port.codecValue n.toNat).map .bytes)

/-- `FW.RD.LE` (R101). -/
def execFwRdLe (n : BitVec 4) (s : State) : Host.Outcome State Fault Refusal := codecReadOp .le n s

/-- `FW.RD.BE` (R102). -/
def execFwRdBe (n : BitVec 4) (s : State) : Host.Outcome State Fault Refusal := codecReadOp .be n s

/-- `FW.WR.LE` (R105). -/
def execFwWrLe (n : BitVec 4) (s : State) : Host.Outcome State Fault Refusal := codecWriteOp .le n s

/-- `FW.WR.BE` (R106). -/
def execFwWrBe (n : BitVec 4) (s : State) : Host.Outcome State Fault Refusal := codecWriteOp .be n s

end Sys2Proof.Machine
end

