-- ==== Sys2Proof/Machine/Bounds.lean ====
section
/-! DEFINITION. The Length Inference Rule and the Bounds Validator (42_length_and_bounds.md), shared by all layouts. Sums and
comparisons are exact (R158). -/

namespace Sys2Proof.Machine

/-- The header bound: a field of `w` bytes at cursor `p` must end within `rem` (R154). -/
def headerBound (rem p w : Nat) : Except Ending Unit :=
  if p + w > rem then .error (.fail .truncHdr) else .ok ()

/-- A header field: the bound check, then the read, then the codec (41_header_layouts.md R120, steps 3 to 5). -/
def readField (order : ByteOrder) (q : Request) (p w : Nat) : Except Ending (BitVec 64) :=
  (headerBound q.rem p w).bind fun _ => (memRead q p w).bind fun b => codecRead order b w

/-- Step 5: the explicit length at cursor `p`, if `D` is set (R150, R126). -/
def readLength (order : ByteOrder) (q : Request) (p : Nat) (d : Bool) : Except Ending (Option Nat) :=
  if d then (readField order q p lengthWidth).map fun v => some v.toNat else .ok none

/-- Step 6, first half: an explicit length is taken literally (R150), a missing one is `rem - hdr` when `F` is set (R151) and
a failure otherwise (R152). -/
def inferLength (f : Bool) (rem hdr : Nat) : Option Nat → Except Ending Nat
  | some dl => .ok dl
  | none => if f then .ok (rem - hdr) else .error (.fail .ambigLen)

/-- Step 6, second half: the payload bound (R153). -/
def payloadBound (rem hdr dl : Nat) : Except Ending Unit :=
  if hdr + dl > rem then .error (.fail .truncPayload) else .ok ()

end Sys2Proof.Machine
end

