-- ==== Sys2Proof/Machine/Headers.lean ====
section
/-! DEFINITION. The header layout decoders (41_header_layouts.md): DecodeCommon (R120), the three operations DEC.LLE, DEC.LBE
and DEC.MOD (R121 to R123), and the instruction of each decoder-word form (30_encoding.md R77, R84). -/

namespace Sys2Proof.Machine

/-- Step 7: the response of an accepted frame (R127, 10_state.md R25). -/
def acceptedFrame (sid off : BitVec 64) (dl hdr : Nat) (f : Bool) : Response :=
  .ok { streamId := sid, dataOffset := off, dataLength := dl, fin := f, readOffset := 0, sourceReference := .null }
    (hdr + dl)

/-- Steps 3 to 7, for the widths `ws` and `wo` and the flags `F` and `D` of step 1 (R120). -/
def decodeFields (order : ByteOrder) (q : Request) (ws wo : Nat) (f d : Bool) : Except Ending Response :=
  (readField order q 1 ws).bind fun sid =>
  (readField order q (1 + ws) wo).bind fun off =>
  (readLength order q (1 + ws + wo) d).bind fun explicit =>
  (inferLength f q.rem (headerLength ws wo d) explicit).bind fun dl =>
  (payloadBound q.rem (headerLength ws wo d) dl).map fun _ =>
  acceptedFrame sid off dl (headerLength ws wo d) f

/-- DecodeCommon once the type byte `t` has been read: the marker and reserved checks (R73, R74), the widths of step 2, and
the fields. -/
def decodeTyped (c : Config) (L : LayoutSpec) (t : Byte) (q : Request) : Except Ending Response :=
  if markerFaults c L t then .error (.raise (.notStream t))
  else if reservedFaults c L t then .error (.raise (.reservedBit t))
  else match sidWidth L t, offWidth L t with
    | some ws, some wo => decodeFields L.order q ws wo (finFlag L t) (dlenFlag L t)
    | _, _ => .error (.stop .noWidthEntry)

/-- `DecodeCommon(L, buf, rem)` (R120). -/
def decodeCommon (c : Config) (L : LayoutSpec) (q : Request) : Except Ending Response :=
  if q.rem < 1 then .error (.fail .truncHdr)
  else (memRead q 0 1).bind fun b => decodeTyped c L (b.headD blankByte) q

/-- `DEC.LLE(buf, rem)` (R121). -/
def decLle (s : State) : Except Ending Response := decodeCommon s.config s.config.lle s.port

/-- `DEC.LBE(buf, rem)` (R122). -/
def decLbe (s : State) : Except Ending Response := decodeCommon s.config s.config.lbe s.port

/-- `DEC.MOD(buf, rem)` (R123). -/
def decMod (s : State) : Except Ending Response := decodeCommon s.config s.config.mod s.port

/-- A decoder-word form: DecodeCommon of its layout, the type byte being the one its decoder word holds. The form names a
case of the DEC operation and takes its meaning from that operation's rule (R84). -/
def decodeForm (L : Layout) (t : Byte) (s : State) : Host.Outcome State Fault Refusal :=
  s.finish (if s.port.rem < 1 then .error (.fail .truncHdr) else decodeTyped s.config (s.config.spec L) t s.port)

/-- `DEC.LLE.X` (R77, R121). -/
def execDecLleX (m f : Bool) (oo ss : BitVec 2) (r : Bool) (s : State) : Host.Outcome State Fault Refusal :=
  decodeForm .lle (legacyByte m f true oo ss r) s

/-- `DEC.LLE.I` (R77, R121). -/
def execDecLleI (m : Bool) (oo ss : BitVec 2) (r : Bool) (s : State) : Host.Outcome State Fault Refusal :=
  decodeForm .lle (legacyByte m true false oo ss r) s

/-- `ILL.LLE.AMBIG` (R75, R77, R121). -/
def execIllLleAmbig (m : Bool) (oo ss : BitVec 2) (r : Bool) (s : State) : Host.Outcome State Fault Refusal :=
  decodeForm .lle (legacyByte m false false oo ss r) s

/-- `DEC.LBE.X` (R77, R122). -/
def execDecLbeX (m f : Bool) (oo ss : BitVec 2) (r : Bool) (s : State) : Host.Outcome State Fault Refusal :=
  decodeForm .lbe (legacyByte m f true oo ss r) s

/-- `DEC.LBE.I` (R77, R122). -/
def execDecLbeI (m : Bool) (oo ss : BitVec 2) (r : Bool) (s : State) : Host.Outcome State Fault Refusal :=
  decodeForm .lbe (legacyByte m true false oo ss r) s

/-- `ILL.LBE.AMBIG` (R75, R77, R122). -/
def execIllLbeAmbig (m : Bool) (oo ss : BitVec 2) (r : Bool) (s : State) : Host.Outcome State Fault Refusal :=
  decodeForm .lbe (legacyByte m false false oo ss r) s

/-- `DEC.MOD.X` (R77, R123). -/
def execDecModX (pp : BitVec 2) (f : Bool) (ss oo : BitVec 2) (s : State) : Host.Outcome State Fault Refusal :=
  decodeForm .mod (modernByte pp f ss oo true) s

/-- `DEC.MOD.I` (R77, R123). -/
def execDecModI (pp ss oo : BitVec 2) (s : State) : Host.Outcome State Fault Refusal :=
  decodeForm .mod (modernByte pp true ss oo false) s

/-- `ILL.MOD.AMBIG` (R75, R77, R123). -/
def execIllModAmbig (pp ss oo : BitVec 2) (s : State) : Host.Outcome State Fault Refusal :=
  decodeForm .mod (modernByte pp false ss oo false) s

/-- `RSV.LAYOUT3`: the reserved code at a layout decoder raises F_BAD_LAYOUT, whatever `rem` and the other bits are (R76,
60_exceptions.md R204). -/
def execRsvLayout3 (_x : BitVec 8) (s : State) : Host.Outcome State Fault Refusal :=
  s.finish (.error (.raise .badLayout))

end Sys2Proof.Machine
end

