-- ==== Sys2Proof/Machine/VersionTable.lean ====
section
/-! DEFINITION. The Version Dispatch Table's operations (43_dispatch.md): SEL (R170), TBL.INIT (R172) and the top-level
request DECODE (R174). -/

namespace Sys2Proof.Machine

/-- `SEL(version)` (R170): no table, no entry, or the layout code. -/
def selectLayout (s : State) (v : Version) : Except Ending (BitVec 2) :=
  if s.tableReady = false then .error (.raise .notInitialised)
  else match Table.lookup s.dt v with
    | none => .error (.raise (.unsupportedVersion v))
    | some code => .ok code

/-- The layout decoder a code selects (R174). -/
def decodeByCode (s : State) (code : BitVec 2) : Except Ending Response :=
  match layoutOfCode code with
  | some .lle => decLle s
  | some .lbe => decLbe s
  | some .mod => decMod s
  | none => .error (.raise .badLayout)

/-- `SEL` (R170). -/
def execSel (v : Version) (s : State) : Host.Outcome State Fault Refusal :=
  s.finish ((selectLayout s v).map .layout)

/-- `TBL.INIT` (R172); a second one is refused with F_TABLE_LOCKED (R173). -/
def execTblInit (d : List (Version × Layout)) (s : State) : Host.Outcome State Fault Refusal :=
  if s.tableReady then .next (s.raiseFault .tableLocked) else .next (s.setTable (Table.build d))

/-- `DECODE` (R174): the version is looked up before any buffer byte is read. -/
def execDecode (v : Version) (s : State) : Host.Outcome State Fault Refusal :=
  s.finish ((selectLayout s v).bind fun code => decodeByCode s code)

end Sys2Proof.Machine
end

