-- ==== Sys2Proof/Machine/Dispatch.lean ====
section
/-! DEFINITION. One arm per instruction, each one direct call of its meaning. -/

namespace Sys2Proof.Machine

def exec (i : Instr) (s : State) : Host.Outcome State Fault Refusal :=
  match i with
  | .decLleX m f oo ss r => Sys2Proof.Machine.execDecLleX m f oo ss r s
  | .decLleI m oo ss r => Sys2Proof.Machine.execDecLleI m oo ss r s
  | .illLleAmbig m oo ss r => Sys2Proof.Machine.execIllLleAmbig m oo ss r s
  | .decLbeX m f oo ss r => Sys2Proof.Machine.execDecLbeX m f oo ss r s
  | .decLbeI m oo ss r => Sys2Proof.Machine.execDecLbeI m oo ss r s
  | .illLbeAmbig m oo ss r => Sys2Proof.Machine.execIllLbeAmbig m oo ss r s
  | .decModX pp f ss oo => Sys2Proof.Machine.execDecModX pp f ss oo s
  | .decModI pp ss oo => Sys2Proof.Machine.execDecModI pp ss oo s
  | .illModAmbig pp ss oo => Sys2Proof.Machine.execIllModAmbig pp ss oo s
  | .rsvLayout3 x => Sys2Proof.Machine.execRsvLayout3 x s
  | .fwRdLe n => Sys2Proof.Machine.execFwRdLe n s
  | .fwRdBe n => Sys2Proof.Machine.execFwRdBe n s
  | .fwWrLe n => Sys2Proof.Machine.execFwWrLe n s
  | .fwWrBe n => Sys2Proof.Machine.execFwWrBe n s
  | .sel v => Sys2Proof.Machine.execSel v s
  | .tblInit d => Sys2Proof.Machine.execTblInit d s
  | .decode v => Sys2Proof.Machine.execDecode v s

end Sys2Proof.Machine
end

