-- ==== Sys2Proof/Machine/Serve.lean ====
section
/-! DEFINITION. Serving the request on the port: forming its word (30_encoding.md R77, R78, R79), decoding it and running the
instruction; and placing a given word there. -/

namespace Sys2Proof.Machine

/-- What the port gives the decoder. -/
inductive Fetched where
  /-- no command is driven -/
  | idle
  /-- a layout decoder is driven but there is no type byte: `rem = 0` -/
  | noTypeByte
  /-- the word to decode -/
  | word (w : PortWord)
  deriving DecidableEq, Repr

/-- The word of the driven command. A layout decoder's word is {layout code, `buf[0]`} (R77); with `rem = 0` there is no
`buf[0]` (R154), except that the reserved code needs none (60_exceptions.md R204 puts F_BAD_LAYOUT first). -/
def fetchWord (q : Request) : Fetched :=
  match q.command with
  | none => .idle
  | some (.header code) =>
    if 1 ≤ q.rem then .word (.decoder (decoderWord code (Memory.read q.buf 0)))
    else if code = 0b11 then .word (.decoder (decoderWord code blankByte))
    else .noTypeByte
  | some (.codec c) => .word (.codec c)
  | some (.sel v) => .word (.sel v)
  | some (.tblInit d) => .word (.tblInit d)
  | some (.decode v) => .word (.decode v)

/-- Serve the request on the port: nothing without one (60_exceptions.md R214), TRUNC_HDR without a type byte (R120 step 1),
otherwise the instruction its word decodes to. -/
def serve (s : State) : Host.Outcome State Fault Refusal :=
  match fetchWord s.port with
  | .idle => .next s
  | .noTypeByte => s.finish (.error (.fail .truncHdr))
  | .word w =>
    match decode w with
    | .ok i => exec i s
    | .error _ => .fault .noOpcodeRow

/-- The step's outcome once the served request has left the port. -/
def retireNext : Host.Outcome State Fault Refusal → Host.Outcome State Fault Refusal
  | .next t => .next t.retire
  | .fault f => .fault f
  | .refused r => .refused r

/-- The request port with a word driven on it: a decoder word drives its layout decoder with its type byte at `buf[0]`, and
`rem` covers that byte; the other words are commands. -/
def Request.withWord (q : Request) : PortWord → Request
  | .decoder w =>
    { q with command := some (.header (w.extractLsb' 8 2)), rem := max 1 q.rem,
             buf := Memory.write q.buf 0 (w.extractLsb' 0 8) }
  | .codec c => { q with command := some (.codec c) }
  | .sel v => { q with command := some (.sel v) }
  | .tblInit d => { q with command := some (.tblInit d) }
  | .decode v => { q with command := some (.decode v) }

/-- The state with a word of the opcode table on its request port; unchanged for bits that are no word. -/
def State.placeWord (s : State) (nbits w : Nat) : State :=
  match portWordOfBytes (tableBytes ((nbits + 7) / 8) w) with
  | .ok p => { s with port := Request.withWord s.port p }
  | .error _ => s

end Sys2Proof.Machine
end

