-- ==== Sys2Proof/Machine/Step.lean ====
section
/-! DEFINITION. One step: one request, one atomic step, one outcome (70_reset_and_hazards.md R241). -/

namespace Sys2Proof.Machine

/-- Serve the request on the port, then bring the next one there. -/
def step (s : State) : Host.Outcome State Fault Refusal := retireNext (serve s)

/-- The state whose very next step runs the instruction with these bits. -/
def State.withFetchWord (s : State) (nbits w : Nat) : State := s.placeWord nbits w

end Sys2Proof.Machine
end

