-- ==== Sys2Proof/Machine/Encoder.lean ====
section
/-! DEFINITION. The reference frame-header encoder ENC (41_header_layouts.md R131). It is not part of the block (00_scope.md
R7); the frame-level laws R132 and R133 are stated with it. -/

namespace Sys2Proof.Machine

/-- `marker_val | F << fin_bit | D << dlen_bit | SS << sid_lo | OO << off_lo` (R131). -/
def encTypeByte (L : LayoutSpec) (ss oo : Nat) (f d : Bool) : Byte :=
  L.markerVal ||| (BitVec.ofNat 8 f.toNat <<< (L.finBit : Nat)) ||| (BitVec.ofNat 8 d.toNat <<< (L.dlenBit : Nat)) |||
    (BitVec.ofNat 8 ss <<< L.sidLo) ||| (BitVec.ofNat 8 oo <<< L.offLo)

/-- `ENC(L, SS, OO, F, D, sid, off, len)` (R131). -/
def encodeHeader (L : LayoutSpec) (ss oo : Nat) (f d : Bool) (sid off len : Nat) : Except Ending (List Byte) :=
  match L.sidTab[ss]?, L.offTab[oo]? with
  | some ws, some wo =>
    (codecWrite L.order sid ws).bind fun sidBytes =>
    (codecWrite L.order off wo).bind fun offBytes =>
    (if d then codecWrite L.order len lengthWidth else .ok []).map fun lenBytes =>
    [encTypeByte L ss oo f d] ++ sidBytes ++ offBytes ++ lenBytes
  | _, _ => .error (.stop .noWidthEntry)

end Sys2Proof.Machine
end

