-- ==== Sys2Proof/WellFormed.lean ====
section
/-! DEFINITION. What the spec requires of parameters and operands before a rule applies: a layout record (30_encoding.md
R66), a configuration (00_scope.md R8), a version token's width (10_state.md R22), and `DISPATCH` being a map (43_dispatch.md
R172). -/

namespace Sys2Proof

/-- The bits `lo .. lo+n-1` of a byte. -/
def fieldMask (lo n : Nat) : Byte := BitVec.ofNat 8 ((2 ^ n - 1) * 2 ^ lo)

/-- The masks of F, D, SS, OO, the marker bits and the reserved bits (R66). -/
def LayoutSpec.masks (L : LayoutSpec) : List Byte :=
  [fieldMask L.finBit 1, fieldMask L.dlenBit 1, fieldMask L.sidLo L.sidN, fieldMask L.offLo L.offN, L.markerMask,
    L.reservedMask]

/-- R66: the fields lie in the byte and never overlap, a table has one entry per selector value and every entry is in
0..8, and the required marker value lies in the marker mask. -/
def LayoutSpec.wf (L : LayoutSpec) : Bool :=
  decide (L.sidLo + L.sidN ≤ 8) && decide (L.offLo + L.offN ≤ 8) &&
    decide (L.masks.Pairwise fun a b => a &&& b = 0#8) &&
    decide (L.sidTab.length = 2 ^ L.sidN) && decide (L.offTab.length = 2 ^ L.offN) &&
    L.sidTab.all (fun w => decide (w ≤ 8)) && L.offTab.all (fun w => decide (w ≤ 8)) &&
    decide (L.markerVal &&& L.markerMask = L.markerVal)

/-- A configuration whose three layout records are well formed (R8, R66). -/
def Config.wf (c : Config) : Bool := c.lle.wf && c.lbe.wf && c.mod.wf

/-- A token the version port can carry (R22, R10). -/
def Config.tokenFits (c : Config) (v : Version) : Bool := decide (v < 2 ^ c.verBits)

/-- `DISPATCH` is a partial map from tokens to layouts: each token at most once, each within its width (R8, R172). -/
def Config.dispatchWf (c : Config) (d : List (Version × Layout)) : Bool :=
  decide (d.map Prod.fst).Nodup && d.all fun p => c.tokenFits p.1

/-- The well-formed instructions of a configuration. Every word of the decoder and of the codec is well formed: the
reserved ones have an outcome of their own (R76, R78). -/
def Instr.wf (c : Config) : Instr → Bool
  | .decLleX .. => true
  | .decLleI .. => true
  | .illLleAmbig .. => true
  | .decLbeX .. => true
  | .decLbeI .. => true
  | .illLbeAmbig .. => true
  | .decModX .. => true
  | .decModI .. => true
  | .illModAmbig .. => true
  | .rsvLayout3 _ => true
  | .fwRdLe _ => true
  | .fwRdBe _ => true
  | .fwWrLe _ => true
  | .fwWrBe _ => true
  | .sel v => c.tokenFits v
  | .tblInit d => c.dispatchWf d
  | .decode v => c.tokenFits v

end Sys2Proof
end

