-- ==== Sys2Proof/Safety.lean ====
section
/-! DEFINITION. The terms claims are stated in: the invariant of the machine, the value of a field on the wire as a sum
(20_memory.md R43), the frame record a header stands for (10_state.md R25), and what a request asks of its caller. -/

namespace Sys2Proof.Machine

/-! ### The invariant -/

/-- The operands of the driven command are well formed: tokens within VER_BITS, `DISPATCH` a map (R22, R172). -/
def Command.wf (c : Config) : Command → Bool
  | .header _ => true
  | .codec _ => true
  | .sel v => c.tokenFits v
  | .tblInit d => c.dispatchWf d
  | .decode v => c.tokenFits v

/-- A request within its ports' widths (R23), its byte spans in canonical form. -/
def Request.wf (c : Config) (q : Request) : Bool :=
  decide (q.rem < 2 ^ c.remBits) && Memory.wf q.buf && Memory.wf q.codecBytes &&
    (match q.command with | none => true | some k => Command.wf c k)

/-- A response within its ports' widths and with the constant fields of R24 and R25: `data_length` below `2^DL_BITS`,
`bytes_consumed` below `2^REM_BITS` and larger than `data_length` (a header is at least one byte), `read_offset = 0`,
`source_reference = NULL`; SEL never gives the reserved code; a codec write gives at most 8 bytes. -/
def Response.wf (c : Config) : Response → Bool
  | .ok r n =>
    decide (r.dataLength < 2 ^ c.dlBits) && decide (n < 2 ^ c.remBits) && decide (r.dataLength < n) &&
      decide (r.readOffset = 0) && decide (r.sourceReference = .null)
  | .fail _ => true
  | .layout code => decide (code ≠ 0b11)
  | .value _ => true
  | .bytes bs => decide (bs.length ≤ 8)

/-- What every step keeps. `DT` is constrained only once it is ready: before that its contents are unspecified (R34). -/
structure State.Inv (s : State) : Prop where
  config : s.config.wf = true
  table : s.tableReady = true → Table.wf s.dt = true
  tokens : s.tableReady = true → (s.dt.all fun p => s.config.tokenFits p.1) = true
  port : Request.wf s.config s.port = true
  waiting : (s.waiting.all fun q => Request.wf s.config q) = true
  response : (match s.response with | none => true | some r => Response.wf s.config r) = true

/-! ### A field on the wire -/

/-- The value of the `n` bytes at index `i` in a byte order, as the sums of R43. -/
def wireValue (o : ByteOrder) (m : Memory) (i n : Nat) : Nat :=
  match o with
  | .le => ∑ k ∈ Finset.range n, (Memory.read m (i + k)).toNat * 256 ^ k
  | .be => ∑ k ∈ Finset.range n, (Memory.read m (i + k)).toNat * 256 ^ (n - 1 - k)

/-- The frame record of a header with widths `ws` and `wo`, length `dl` and FIN `f` (R25). -/
def wireFrame (o : ByteOrder) (m : Memory) (ws wo dl : Nat) (f : Bool) : FrameRecord where
  streamId := BitVec.ofNat 64 (wireValue o m 1 ws)
  dataOffset := BitVec.ofNat 64 (wireValue o m (1 + ws) wo)
  dataLength := dl
  fin := f
  readOffset := 0
  sourceReference := .null

/-- The length a header states: the explicit field when `d` (R150), otherwise what is left of `rem` (R151). -/
def wireLength (o : ByteOrder) (q : Request) (ws wo : Nat) (d : Bool) : Nat :=
  if d then wireValue o q.buf (1 + ws + wo) 2 else q.rem - (1 + ws + wo)

/-- A span begins with a byte sequence. -/
def Memory.beginsWith (m : Memory) (bs : List Byte) : Prop :=
  ∀ k, (h : k < bs.length) → Memory.read m k = bs[k]

/-! ### What a request asks of its caller -/

/-- The type byte of the request on the port. -/
def typeByte (q : Request) : Byte := Memory.read q.buf 0

/-- A type byte whose marker and reserved bits pass, or whose policy ignores them (R73, R74). -/
def TypeByteOk (c : Config) (L : LayoutSpec) (t : Byte) : Prop :=
  (c.markerPolicy = .ignore ∨ t &&& L.markerMask = L.markerVal) ∧
    (c.reservedPolicy = .ignore ∨ t &&& L.reservedMask = 0)

/-- The table is ready and maps a version to a layout (R22, R177). -/
def Supports (s : State) (v : Version) (lay : Layout) : Prop :=
  s.tableReady = true ∧ Table.lookup s.dt v = some (layoutCode lay)

/-- The widths a layout record gives a type byte. -/
def WidthsAre (L : LayoutSpec) (t : Byte) (ws wo : Nat) : Prop :=
  sidWidth L t = some ws ∧ offWidth L t = some wo

/-- The state a model fault leaves (R201): recorded, no response, nothing else changed. -/
def afterFault (s : State) (f : ModelFault) : State := { s with response := none, faults := f :: s.faults }

/-- The state a response leaves: the response on its port, nothing else changed (R24, R205). -/
def afterResponse (s : State) (r : Response) : State := { s with response := some r }

/-- The step stops in neither a fault nor a refusal. -/
def answersNext (o : Host.Outcome State Fault Refusal) : Prop := ∃ t, o = .next t

/-- The outcome of a request that ends so (00_scope.md R12). -/
def endsAs (s : State) : Except Ending Response → Host.Outcome State Fault Refusal
  | .ok r => .next (afterResponse s r)
  | .error (.fail k) => .next (afterResponse s (.fail k))
  | .error (.raise f) => .next (afterFault s f)
  | .error (.stop f) => .fault f

/-- The state with another buffer on the request port. -/
def State.withBuf (s : State) (m : Memory) : State := { s with port := { s.port with buf := m } }

/-- The state with another byte sequence given to the codec. -/
def State.withCodecBytes (s : State) (m : Memory) : State := { s with port := { s.port with codecBytes := m } }

/-- The state with another value given to the codec. -/
def State.withCodecValue (s : State) (v : Nat) : State := { s with port := { s.port with codecValue := v } }

/-! ### The outcome of a decode request in the order of 60_exceptions.md R204 -/

/-- DecodeCommon's outcome with the single header check of 42_length_and_bounds.md R160 and the priority of R204, items 4 to
9, for a record with one width per selector. -/
def prioritised (c : Config) (L : LayoutSpec) (q : Request) (ws wo : Nat) : Except Ending Response :=
  let t := typeByte q
  let hdr := headerLength ws wo (dlenFlag L t)
  let dl := wireLength L.order q ws wo (dlenFlag L t)
  if q.rem = 0 then .error (.fail .truncHdr)
  else if c.markerPolicy = .fault ∧ t &&& L.markerMask ≠ L.markerVal then .error (.raise (.notStream t))
  else if c.reservedPolicy = .fault ∧ t &&& L.reservedMask ≠ 0 then .error (.raise (.reservedBit t))
  else if q.rem < hdr then .error (.fail .truncHdr)
  else if dlenFlag L t = false ∧ finFlag L t = false then .error (.fail .ambigLen)
  else if dlenFlag L t = true ∧ q.rem < hdr + dl then .error (.fail .truncPayload)
  else .ok (.ok (wireFrame L.order q.buf ws wo dl (finFlag L t)) (hdr + dl))

end Sys2Proof.Machine
end

