-- ==== Sys2Proof/Certificates/Slice0/Obligations.lean ====
section
/-! DEFINITION. The statements for the provers. Each docstring names the rule it formalises. -/

open Sys2Proof Sys2Proof.Machine

/-! ### Reset, the invariant, whole-machine rules -/

/-- R230: power-on reset, of any machine and whatever `DT` then holds, leaves `table_ready = 0`, no request in flight and no
response pending; and so does the state the machine starts in. -/
def Obligations.PowerOnResetClearsReadyAndRequests : Prop :=
  (∀ (s : State) (dt : Table), (s.powerOn dt).tableReady = false ∧ (s.powerOn dt).port.command = none ∧
    (s.powerOn dt).waiting = [] ∧ (s.powerOn dt).response = none) ∧
  State.reset.tableReady = false ∧ State.reset.port.command = none ∧ State.reset.waiting = [] ∧
    State.reset.response = none

/-- The invariant holds at reset, for every well-formed configuration and whatever `DT` holds then. -/
def Obligations.ResetMeetsInvariant : Prop :=
  State.reset.Inv ∧ ∀ (c : Config) (dt : Table), c.wf = true → (State.resetWith c dt).Inv

/-- Every step keeps the invariant: a ready table is a map without the reserved code (R22), the byte spans keep their
canonical form, and requests and responses fit their ports (R23, R24, R151). -/
def Obligations.StepKeepsInvariant : Prop :=
  ∀ s t : State, s.Inv → step s = .next t → t.Inv

/-- R42: the block never reads outside its window. A read there would stop the model (`memRead`); under well-formed layout
records no instruction and no step stops, in any state. That a request which raises a model fault goes on to a next state is
log entry 1; that an outside read, a missing width and a missing row are what would stop the model is log entry 14. -/
def Obligations.StepNeverStops : Prop :=
  ∀ s : State, s.config.wf = true → answersNext (step s) ∧ ∀ i : Instr, answersNext (exec i s)

/-- R173: once the table is ready no run changes it or its flag; a second TBL.INIT records F_TABLE_LOCKED (a next state by
log entry 1); no other instruction writes the table, ready or not. -/
def Obligations.TableNeverChangesOnceReady : Prop :=
  (∀ (k : Nat) (s t : State), s.tableReady = true → Sys2Proof.core.run k s = .next t →
    t.dt = s.dt ∧ t.tableReady = true) ∧
  (∀ (d : List (Version × Layout)) (s : State), s.tableReady = true →
    ∃ t, exec (.tblInit d) s = .next t ∧ t.faults = .tableLocked :: s.faults ∧ t.dt = s.dt ∧ t.tableReady = true) ∧
  (∀ (i : Instr) (s t : State), (∀ d, i ≠ .tblInit d) → exec i s = .next t →
    t.dt = s.dt ∧ t.tableReady = s.tableReady)

/-- No run clears a recorded fault (R201; that a model fault is a next state is log entry 1). -/
def Obligations.RecordedFaultsNeverCleared : Prop :=
  ∀ (k : Nat) (s t : State), Sys2Proof.core.run k s = .next t → s.faults <:+ t.faults

/-- An instruction's outcome does not depend on the earlier response, on the faults recorded, or on the requests that wait
(R129, R206; the record of faults is log entry 1, a direct layout decode before TBL.INIT log entry 11). -/
def Obligations.OutcomeIgnoresHistory : Prop :=
  ∀ (i : Instr) (s t : State) (resp : Option Response) (fs : List ModelFault) (qs : List Request),
    exec i s = .next t →
    ∃ (t' : State) (new : List ModelFault),
      exec i { s with response := resp, faults := fs, waiting := qs } = .next t' ∧
      t'.response = t.response ∧ t'.dt = t.dt ∧ t'.tableReady = t.tableReady ∧ t'.port = t.port ∧
      t.faults = new ++ s.faults ∧ t'.faults = new ++ fs

/-- With the table ready, two requests in flight have the same responses in either order, the table is the same after both,
and the same faults are recorded (R54, R55; serving them oldest first is the model's choice, log entry 4; the record of
faults is log entry 1). -/
def Obligations.RequestOrderDoesNotMatter : Prop :=
  ∀ (s t₁ t₂ u₁ u₂ : State) (a b : Request), s.tableReady = true → a.command ≠ none → b.command ≠ none →
    step { s with port := a, waiting := [b] } = .next t₁ → step t₁ = .next t₂ →
    step { s with port := b, waiting := [a] } = .next u₁ → step u₁ = .next u₂ →
    t₁.response = u₂.response ∧ t₂.response = u₁.response ∧ t₂.dt = u₂.dt ∧ t₂.tableReady = u₂.tableReady ∧
      t₂.faults.Perm u₂.faults

/-! ### The step -/

/-- The word each command forms (R77, R78, R79): a layout decoder {layout code, `buf[0]`} when there is a `buf[0]`, the
codec its control word, SEL, TBL.INIT and DECODE themselves; the reserved code with `rem = 0` forms a word of that code with
a blank byte (log entry 13). A step runs the instruction that word decodes to, after which (when it is a next state) the
request leaves the port and the oldest waiting one takes its place; with no command driven and requests waiting, a step only
brings the oldest onto the port. The queue, and that a retired request leaves its operands on the port, are the model's
choices (log entries 3, 4 and 22); that a layout decoder runs before TBL.INIT too is log entry 11. -/
def Obligations.StepRunsDecodedInstruction : Prop :=
  (∀ (s : State) (w : PortWord) (i : Instr), fetchWord s.port = .word w → decode w = .ok i →
    step s = retireNext (exec i s)) ∧
  (∀ (s : State) (code : BitVec 2), s.port.command = some (.header code) → 1 ≤ s.port.rem →
    fetchWord s.port = .word (.decoder (decoderWord code (Memory.read s.port.buf 0)))) ∧
  (∀ s : State, s.port.command = some (.header 0b11) → s.port.rem = 0 →
    fetchWord s.port = .word (.decoder (decoderWord 0b11 0x00))) ∧
  (∀ (s : State) (c : BitVec 6), s.port.command = some (.codec c) → fetchWord s.port = .word (.codec c)) ∧
  (∀ (s : State) (v : Version), s.port.command = some (.sel v) → fetchWord s.port = .word (.sel v)) ∧
  (∀ (s : State) (d : List (Version × Layout)), s.port.command = some (.tblInit d) →
    fetchWord s.port = .word (.tblInit d)) ∧
  (∀ (s : State) (v : Version), s.port.command = some (.decode v) → fetchWord s.port = .word (.decode v)) ∧
  (∀ (s : State) (q : Request) (qs : List Request), s.port.command = none → s.waiting = q :: qs →
    step s = .next { s with port := q, waiting := qs }) ∧
  (∀ (s : State) (q : Request) (qs : List Request), s.waiting = q :: qs →
    s.retire = { s with port := q, waiting := qs }) ∧
  (∀ s : State, s.waiting = [] → s.retire = { s with port := { s.port with command := none } })

/-- With no request in flight a step changes nothing (R214; a step without a request is the model's, log entry 3). -/
def Obligations.IdleStepChangesNothing : Prop :=
  ∀ s : State, s.port.command = none → s.waiting = [] → step s = .next s

/-- A layout decoder driven with `rem = 0` answers TRUNC_HDR without forming a decoder word (R120 step 1; that no word is
formed is log entry 12, that it runs before TBL.INIT too is log entry 11). -/
def Obligations.StepWithoutTypeByteFails : Prop :=
  ∀ (s : State) (lay : Layout), s.port.command = some (.header (layoutCode lay)) → s.port.rem = 0 →
    step s = .next (afterResponse s (.fail .truncHdr)).retire

/-- A layout decoder driven on the port (R121, R122, R123; the command is log entry 3) is DecodeCommon of its layout record,
whichever form its decoder word selects. Its model faults are next states by log entry 1, and it runs before TBL.INIT too by
log entry 11. -/
def Obligations.HeaderCommandIsDecodeCommon : Prop :=
  ∀ (s : State) (lay : Layout), s.port.command = some (.header (layoutCode lay)) →
    serve s = endsAs s (decodeCommon s.config (s.config.spec lay) s.port)

/-! ### Encoding -/

/-- Decoding an encoded instruction gives it back, every operand at every value. -/
def Obligations.DecodeOfEncode : Prop := ∀ i : Instr, decode (encode i) = .ok i

/-- Each word has one meaning: the instruction a word decodes to encodes to that word. -/
def Obligations.EncodeOfDecode : Prop := ∀ (w : PortWord) (i : Instr), decode w = .ok i → encode i = w

/-- Every decoder word fits exactly one of the ten rows, and every codec control word exactly one of the four (R77, which
the spec derives from R67, R69, R75 and R76; R78). -/
def Obligations.EveryWordFitsOneRow : Prop :=
  (∀ w : BitVec 10, (decoderRows.filter fun row => row.fits w).length = 1) ∧
  (∀ c : BitVec 6, (codecRows.filter fun row => row.fits c).length = 1)

/-- Words written out from the patterns of R77 and R78. -/
def Obligations.SampleWordsDecode : Prop :=
  decode (.decoder 0b0011111100#10) = .ok (.decLleX true true 3 2 false) ∧
  decode (.decoder 0b0111000000#10) = .ok (.decLbeI true 0 0 false) ∧
  decode (.decoder 0b1011100000#10) = .ok (.decModI 3 0 0) ∧
  decode (.decoder 0b1011000000#10) = .ok (.illModAmbig 3 0 0) ∧
  decode (.decoder 0b1100000001#10) = .ok (.rsvLayout3 1) ∧
  decode (.codec 0b110100#6) = .ok (.fwWrBe 4)

/-- R67, R68, R69: what the default layout records read from a type byte built from its pattern. -/
def Obligations.TypeByteFieldsAreRead : Prop :=
  (∀ (m f d : Bool) (oo ss : BitVec 2) (r : Bool) (L : LayoutSpec), L = layoutLle ∨ L = layoutLbe →
    finFlag L (legacyByte m f d oo ss r) = f ∧ dlenFlag L (legacyByte m f d oo ss r) = d ∧
    sidSelector L (legacyByte m f d oo ss r) = ss.toNat ∧ offSelector L (legacyByte m f d oo ss r) = oo.toNat ∧
    (legacyByte m f d oo ss r &&& L.markerMask = L.markerVal ↔ m = true) ∧
    (legacyByte m f d oo ss r &&& L.reservedMask = 0 ↔ r = false)) ∧
  (∀ (pp : BitVec 2) (f : Bool) (ss oo : BitVec 2) (d : Bool),
    finFlag layoutMod (modernByte pp f ss oo d) = f ∧ dlenFlag layoutMod (modernByte pp f ss oo d) = d ∧
    sidSelector layoutMod (modernByte pp f ss oo d) = ss.toNat ∧
    offSelector layoutMod (modernByte pp f ss oo d) = oo.toNat ∧
    (modernByte pp f ss oo d &&& layoutMod.markerMask = layoutMod.markerVal ↔ pp = 0b11) ∧
    modernByte pp f ss oo d &&& layoutMod.reservedMask = 0)

/-- The width tables of R70 and R71 with their numbers written out, as tables and for every selector of a type byte; the header
length of R61; and the shortest and longest headers of the default layouts, each reached (R62, which the spec derives from
R61, R70, R71). -/
def Obligations.HeaderLengthRange : Prop :=
  (legacySidTab = [1, 2, 4, 8] ∧ legacyOffTab = [0, 2, 4, 8] ∧ modernSidTab = [0, 1, 2, 4] ∧
    modernOffTab = [0, 2, 4, 8]) ∧
  (∀ (m f d : Bool) (oo ss : BitVec 2) (r : Bool) (L : LayoutSpec), L = layoutLle ∨ L = layoutLbe →
    WidthsAre L (legacyByte m f d oo ss r) (![1, 2, 4, 8] ss.toFin) (![0, 2, 4, 8] oo.toFin)) ∧
  (∀ (pp : BitVec 2) (f : Bool) (ss oo : BitVec 2) (d : Bool),
    WidthsAre layoutMod (modernByte pp f ss oo d) (![0, 1, 2, 4] ss.toFin) (![0, 2, 4, 8] oo.toFin)) ∧
  (∀ ws wo : Nat, headerLength ws wo false = 1 + ws + wo ∧ headerLength ws wo true = 1 + ws + wo + 2) ∧
  (∀ (L : LayoutSpec) (t : Byte) (ws wo : Nat), L = layoutLle ∨ L = layoutLbe → WidthsAre L t ws wo →
    2 ≤ headerLength ws wo (dlenFlag L t) ∧ headerLength ws wo (dlenFlag L t) ≤ 19) ∧
  (∀ (t : Byte) (ws wo : Nat), WidthsAre layoutMod t ws wo →
    1 ≤ headerLength ws wo (dlenFlag layoutMod t) ∧ headerLength ws wo (dlenFlag layoutMod t) ≤ 15) ∧
  (∀ L : LayoutSpec, L = layoutLle ∨ L = layoutLbe →
    WidthsAre L 0x80 1 0 ∧ headerLength 1 0 (dlenFlag L 0x80) = 2 ∧
    WidthsAre L 0xBE 8 8 ∧ headerLength 8 8 (dlenFlag L 0xBE) = 19) ∧
  WidthsAre layoutMod 0xC0 0 0 ∧ headerLength 0 0 (dlenFlag layoutMod 0xC0) = 1 ∧
  WidthsAre layoutMod 0xDF 4 8 ∧ headerLength 4 8 (dlenFlag layoutMod 0xDF) = 15

/-! ### The frames -/

/-- The frame of every instruction but TBL.INIT: the parameters, the table and its flag, the request port with every byte of
its spans, and the waiting requests stay; either a response is given and no fault recorded, or one fault is recorded and no
response given (log entries 1 and 10). The forms run before TBL.INIT too (log entry 11). -/
def Obligations.FrameOfRequests : Prop :=
  ∀ (i : Instr) (s t : State), (∀ d, i ≠ .tblInit d) → exec i s = .next t →
    t.config = s.config ∧ t.tableReady = s.tableReady ∧ t.dt = s.dt ∧ t.port = s.port ∧ t.waiting = s.waiting ∧
    (∀ a, Memory.read t.port.buf a = Memory.read s.port.buf a) ∧
    (∀ a, Memory.read t.port.codecBytes a = Memory.read s.port.codecBytes a) ∧
    (((∃ r, t.response = some r) ∧ t.faults = s.faults) ∨ (∃ f, t.response = none ∧ t.faults = f :: s.faults))

/-- The frame of TBL.INIT: it writes the table and its flag when the table is not ready, records a fault and keeps the table
when it is, and leaves no response (the model's choice, log entry 10; the record of the fault is log entry 1); everything
else stays. -/
def Obligations.FrameOfTblInit : Prop :=
  ∀ (d : List (Version × Layout)) (s t : State), exec (.tblInit d) s = .next t →
    t.config = s.config ∧ t.port = s.port ∧ t.waiting = s.waiting ∧ t.response = none ∧
    (∀ a, Memory.read t.port.buf a = Memory.read s.port.buf a) ∧
    (∀ a, Memory.read t.port.codecBytes a = Memory.read s.port.codecBytes a) ∧
    (s.tableReady = false → t.faults = s.faults) ∧
    (s.tableReady = true → t.dt = s.dt ∧ t.tableReady = true ∧ t.faults = .tableLocked :: s.faults)

/-! ### The dispatch table -/

/-- SEL's three outcomes (R170; the fault as a next state is log entry 1, the place of the result log entry 6). -/
def Obligations.SelReturnsTheEntry : Prop :=
  ∀ (v : Version) (s : State),
    (s.tableReady = false → exec (.sel v) s = .next (afterFault s .notInitialised)) ∧
    (s.tableReady = true → Table.lookup s.dt v = none →
      exec (.sel v) s = .next (afterFault s (.unsupportedVersion v))) ∧
    (∀ code, s.tableReady = true → Table.lookup s.dt v = some code →
      exec (.sel v) s = .next (afterResponse s (.layout code)))

/-- TBL.INIT on a table that is not ready makes it hold exactly `DISPATCH`, whatever it held, and ready; on a ready one it
records F_TABLE_LOCKED (R172, R173; the record is log entry 1). -/
def Obligations.TblInitBuildsDispatch : Prop :=
  ∀ (d : List (Version × Layout)) (s : State),
    (s.tableReady = false → s.config.dispatchWf d = true →
      ∃ t, exec (.tblInit d) s = .next t ∧ t.tableReady = true ∧
        (∀ v lay, (v, lay) ∈ d → Table.lookup t.dt v = some (layoutCode lay)) ∧
        (∀ v, (∀ lay, (v, lay) ∉ d) → Table.lookup t.dt v = none) ∧
        t.config = s.config ∧ t.port = s.port ∧ t.waiting = s.waiting ∧ t.faults = s.faults) ∧
    (s.tableReady = true →
      ∃ t, exec (.tblInit d) s = .next t ∧ t.faults = .tableLocked :: s.faults ∧ t.dt = s.dt ∧ t.tableReady = true)

/-- Before TBL.INIT, SEL and DECODE record F_NOT_INITIALISED, whatever `DT`, `rem` and the buffer hold (R176; log entry 1).
-/
def Obligations.LookupsBeforeInitFault : Prop :=
  ∀ (v : Version) (s : State), s.tableReady = false →
    exec (.sel v) s = .next (afterFault s .notInitialised) ∧
    exec (.decode v) s = .next (afterFault s .notInitialised)

/-- A version without an entry records F_UNSUPPORTED_VERSION with the token, whatever `rem` and the buffer hold (R171; log
entry 1). -/
def Obligations.UnsupportedVersionFaults : Prop :=
  ∀ (v : Version) (s : State), s.tableReady = true → Table.lookup s.dt v = none →
    exec (.decode v) s = .next (afterFault s (.unsupportedVersion v)) ∧
    exec (.sel v) s = .next (afterFault s (.unsupportedVersion v))

/-- DECODE is SEL followed by the form its decoder word selects, the reserved code's row among them (R84, R174; log entries
12 and 13, and 1 where it records a fault). -/
def Obligations.DecodeExpandsToForm : Prop :=
  ∀ (v : Version) (s : State) (code : BitVec 2), s.tableReady = true → Table.lookup s.dt v = some code →
    1 ≤ s.port.rem →
    ∃ i, decode (.decoder (decoderWord code (typeByte s.port))) = .ok i ∧ exec (.decode v) s = exec i s

/-- The reserved layout code records F_BAD_LAYOUT, as a decoder word and as a table entry (R76, R174; log entries 1, 11 and
13). -/
def Obligations.ReservedLayoutFaults : Prop :=
  (∀ (x : BitVec 8) (s : State), exec (.rsvLayout3 x) s = .next (afterFault s .badLayout)) ∧
  (∀ (v : Version) (s : State), s.tableReady = true → Table.lookup s.dt v = some 0b11 →
    exec (.decode v) s = .next (afterFault s .badLayout))

/-! ### Decoding a frame -/

/-- DECODE's outcome, the causes in the order of R204 with the single header check of R160, for every well-formed
configuration (the faults as next states are log entry 1). -/
def Obligations.DecodeOutcomePriority : Prop :=
  ∀ (v : Version) (s : State), s.config.wf = true →
    (s.tableReady = false → exec (.decode v) s = .next (afterFault s .notInitialised)) ∧
    (s.tableReady = true → Table.lookup s.dt v = none →
      exec (.decode v) s = .next (afterFault s (.unsupportedVersion v))) ∧
    (s.tableReady = true → Table.lookup s.dt v = some 0b11 → exec (.decode v) s = .next (afterFault s .badLayout)) ∧
    (∀ lay, Supports s v lay → ∃ ws wo, WidthsAre (s.config.spec lay) (typeByte s.port) ws wo ∧
      exec (.decode v) s = endsAs s (prioritised s.config (s.config.spec lay) s.port ws wo))

/-- R120, R127, R174: DECODE accepts a frame whose header and payload fit, under any well-formed configuration, and gives
its record and byte count. -/
def Obligations.DecodeAcceptsFittingFrame : Prop :=
  ∀ (v : Version) (s : State) (lay : Layout) (ws wo : Nat), s.config.wf = true → Supports s v lay →
    WidthsAre (s.config.spec lay) (typeByte s.port) ws wo →
    TypeByteOk s.config (s.config.spec lay) (typeByte s.port) →
    (dlenFlag (s.config.spec lay) (typeByte s.port) = true ∨ finFlag (s.config.spec lay) (typeByte s.port) = true) →
    headerLength ws wo (dlenFlag (s.config.spec lay) (typeByte s.port)) ≤ s.port.rem →
    headerLength ws wo (dlenFlag (s.config.spec lay) (typeByte s.port)) +
      wireLength (s.config.spec lay).order s.port ws wo (dlenFlag (s.config.spec lay) (typeByte s.port)) ≤ s.port.rem →
    exec (.decode v) s = .next (afterResponse s (.ok
      (wireFrame (s.config.spec lay).order s.port.buf ws wo
        (wireLength (s.config.spec lay).order s.port ws wo (dlenFlag (s.config.spec lay) (typeByte s.port)))
        (finFlag (s.config.spec lay) (typeByte s.port)))
      (headerLength ws wo (dlenFlag (s.config.spec lay) (typeByte s.port)) +
        wireLength (s.config.spec lay).order s.port ws wo (dlenFlag (s.config.spec lay) (typeByte s.port)))))

/-- Explicit length (R150) for the default layout records: DEC.LLE.X, DEC.LBE.X and DEC.MOD.X take the 2-byte length
literally, 0 and 65535 like any other, whatever FIN is. The forms run with their word's own type byte and in either phase
(log entries 12 and 11). -/
def Obligations.ExplicitLength : Prop :=
  (∀ (m f : Bool) (oo ss : BitVec 2) (r : Bool) (s : State) (ws wo : Nat),
    legacySidTab[ss.toNat]? = some ws → legacyOffTab[oo.toNat]? = some wo →
    (s.config.lle = layoutLle → TypeByteOk s.config layoutLle (legacyByte m f true oo ss r) →
      3 + ws + wo + wireValue .le s.port.buf (1 + ws + wo) 2 ≤ s.port.rem →
      exec (.decLleX m f oo ss r) s = .next (afterResponse s (.ok
        (wireFrame .le s.port.buf ws wo (wireValue .le s.port.buf (1 + ws + wo) 2) f)
        (3 + ws + wo + wireValue .le s.port.buf (1 + ws + wo) 2)))) ∧
    (s.config.lbe = layoutLbe → TypeByteOk s.config layoutLbe (legacyByte m f true oo ss r) →
      3 + ws + wo + wireValue .be s.port.buf (1 + ws + wo) 2 ≤ s.port.rem →
      exec (.decLbeX m f oo ss r) s = .next (afterResponse s (.ok
        (wireFrame .be s.port.buf ws wo (wireValue .be s.port.buf (1 + ws + wo) 2) f)
        (3 + ws + wo + wireValue .be s.port.buf (1 + ws + wo) 2))))) ∧
  (∀ (pp : BitVec 2) (f : Bool) (ss oo : BitVec 2) (s : State) (ws wo : Nat),
    modernSidTab[ss.toNat]? = some ws → modernOffTab[oo.toNat]? = some wo → s.config.mod = layoutMod →
    TypeByteOk s.config layoutMod (modernByte pp f ss oo true) →
    3 + ws + wo + wireValue .be s.port.buf (1 + ws + wo) 2 ≤ s.port.rem →
    exec (.decModX pp f ss oo) s = .next (afterResponse s (.ok
      (wireFrame .be s.port.buf ws wo (wireValue .be s.port.buf (1 + ws + wo) 2) f)
      (3 + ws + wo + wireValue .be s.port.buf (1 + ws + wo) 2))))

/-- Inferred length (R151) for the default layout records: DEC.LLE.I, DEC.LBE.I and DEC.MOD.I give what is left of `rem`,
whatever its size, `rem = hdr` included. The forms run with their word's own type byte and in either phase (log entries 12
and 11). -/
def Obligations.InferredLength : Prop :=
  (∀ (m : Bool) (oo ss : BitVec 2) (r : Bool) (s : State) (ws wo : Nat),
    legacySidTab[ss.toNat]? = some ws → legacyOffTab[oo.toNat]? = some wo → 1 + ws + wo ≤ s.port.rem →
    (s.config.lle = layoutLle → TypeByteOk s.config layoutLle (legacyByte m true false oo ss r) →
      exec (.decLleI m oo ss r) s = .next (afterResponse s (.ok
        (wireFrame .le s.port.buf ws wo (s.port.rem - (1 + ws + wo)) true) s.port.rem))) ∧
    (s.config.lbe = layoutLbe → TypeByteOk s.config layoutLbe (legacyByte m true false oo ss r) →
      exec (.decLbeI m oo ss r) s = .next (afterResponse s (.ok
        (wireFrame .be s.port.buf ws wo (s.port.rem - (1 + ws + wo)) true) s.port.rem)))) ∧
  (∀ (pp ss oo : BitVec 2) (s : State) (ws wo : Nat),
    modernSidTab[ss.toNat]? = some ws → modernOffTab[oo.toNat]? = some wo → 1 + ws + wo ≤ s.port.rem →
    s.config.mod = layoutMod → TypeByteOk s.config layoutMod (modernByte pp true ss oo false) →
    exec (.decModI pp ss oo) s = .next (afterResponse s (.ok
      (wireFrame .be s.port.buf ws wo (s.port.rem - (1 + ws + wo)) true) s.port.rem)))

/-- Ambiguous length (R152) for the default layout records: ILL.LLE.AMBIG, ILL.LBE.AMBIG and ILL.MOD.AMBIG fail with
AMBIG_LEN once the header fits `rem` and with TRUNC_HDR when it does not, whatever the buffer holds. The forms run with
their word's own type byte and in either phase (log entries 12 and 11). -/
def Obligations.AmbiguousLengthFails : Prop :=
  (∀ (m : Bool) (oo ss : BitVec 2) (r : Bool) (s : State) (ws wo : Nat),
    legacySidTab[ss.toNat]? = some ws → legacyOffTab[oo.toNat]? = some wo →
    (s.config.lle = layoutLle → TypeByteOk s.config layoutLle (legacyByte m false false oo ss r) →
      exec (.illLleAmbig m oo ss r) s = .next (afterResponse s (.fail
        (if 1 + ws + wo ≤ s.port.rem then .ambigLen else .truncHdr)))) ∧
    (s.config.lbe = layoutLbe → TypeByteOk s.config layoutLbe (legacyByte m false false oo ss r) →
      exec (.illLbeAmbig m oo ss r) s = .next (afterResponse s (.fail
        (if 1 + ws + wo ≤ s.port.rem then .ambigLen else .truncHdr))))) ∧
  (∀ (pp ss oo : BitVec 2) (s : State) (ws wo : Nat),
    modernSidTab[ss.toNat]? = some ws → modernOffTab[oo.toNat]? = some wo →
    s.config.mod = layoutMod → TypeByteOk s.config layoutMod (modernByte pp false ss oo false) →
    exec (.illModAmbig pp ss oo) s = .next (afterResponse s (.fail
      (if 1 + ws + wo ≤ s.port.rem then .ambigLen else .truncHdr))))

/-- R154: a header field that would end past `rem` fails with TRUNC_HDR: the type byte, the stream id, the offset, and the
length field when `D = 1`. -/
def Obligations.TruncatedHeaderFails : Prop :=
  ∀ (v : Version) (s : State) (lay : Layout) (ws wo : Nat), s.config.wf = true → Supports s v lay →
    (s.port.rem < 1 → exec (.decode v) s = .next (afterResponse s (.fail .truncHdr))) ∧
    (1 ≤ s.port.rem → WidthsAre (s.config.spec lay) (typeByte s.port) ws wo →
      TypeByteOk s.config (s.config.spec lay) (typeByte s.port) →
      (1 + ws > s.port.rem ∨ 1 + ws + wo > s.port.rem ∨
        (dlenFlag (s.config.spec lay) (typeByte s.port) = true ∧ 1 + ws + wo + 2 > s.port.rem)) →
      exec (.decode v) s = .next (afterResponse s (.fail .truncHdr)))

/-- R153: a frame whose header fits and whose explicit length passes `rem` fails with TRUNC_PAYLOAD. -/
def Obligations.TruncatedPayloadFails : Prop :=
  ∀ (v : Version) (s : State) (lay : Layout) (ws wo : Nat), s.config.wf = true → Supports s v lay →
    WidthsAre (s.config.spec lay) (typeByte s.port) ws wo →
    TypeByteOk s.config (s.config.spec lay) (typeByte s.port) →
    dlenFlag (s.config.spec lay) (typeByte s.port) = true → 3 + ws + wo ≤ s.port.rem →
    3 + ws + wo + wireValue (s.config.spec lay).order s.port.buf (1 + ws + wo) 2 > s.port.rem →
    exec (.decode v) s = .next (afterResponse s (.fail .truncPayload))

/-- R156, which the spec derives from R153: for an explicit-length header that fits, every length up to `rem - hdr` written
in its length field is accepted and every larger one refused. -/
def Obligations.PayloadBoundaryIsExact : Prop :=
  ∀ (v : Version) (s : State) (lay : Layout) (ws wo dl : Nat), s.config.wf = true → Supports s v lay →
    Memory.wf s.port.buf = true → WidthsAre (s.config.spec lay) (typeByte s.port) ws wo →
    TypeByteOk s.config (s.config.spec lay) (typeByte s.port) →
    dlenFlag (s.config.spec lay) (typeByte s.port) = true → 3 + ws + wo ≤ s.port.rem → dl < 65536 →
    ∀ m, m = Memory.writeN s.port.buf (1 + ws + wo) (fieldBytes (s.config.spec lay).order dl 2) →
    (dl ≤ s.port.rem - (3 + ws + wo) → exec (.decode v) (s.withBuf m) = .next (afterResponse (s.withBuf m) (.ok
      (wireFrame (s.config.spec lay).order s.port.buf ws wo dl (finFlag (s.config.spec lay) (typeByte s.port)))
      (3 + ws + wo + dl)))) ∧
    (dl > s.port.rem - (3 + ws + wo) →
      exec (.decode v) (s.withBuf m) = .next (afterResponse (s.withBuf m) (.fail .truncPayload)))

/-- R155, which the spec derives from R151 and R153: a request whose type byte has `D = 0` never ends with TRUNC_PAYLOAD. -/
def Obligations.InferredLengthNeverTruncates : Prop :=
  ∀ (v : Version) (s t : State) (lay : Layout), Supports s v lay →
    dlenFlag (s.config.spec lay) (typeByte s.port) = false → exec (.decode v) s = .next t →
    t.response ≠ some (.fail .truncPayload)

/-- Under the policy `fault`, marker bits that do not match record F_NOT_STREAM, and otherwise a set reserved bit records
F_RESERVED_BIT, each with the type byte; under the policy `ignore` neither is recorded (R73, R74; log entry 1). -/
def Obligations.MarkerAndReservedChecks : Prop :=
  ∀ (v : Version) (s : State) (lay : Layout), Supports s v lay → 1 ≤ s.port.rem →
    (s.config.markerPolicy = .fault → typeByte s.port &&& (s.config.spec lay).markerMask ≠ (s.config.spec lay).markerVal →
      exec (.decode v) s = .next (afterFault s (.notStream (typeByte s.port)))) ∧
    ((s.config.markerPolicy = .ignore ∨
        typeByte s.port &&& (s.config.spec lay).markerMask = (s.config.spec lay).markerVal) →
      s.config.reservedPolicy = .fault → typeByte s.port &&& (s.config.spec lay).reservedMask ≠ 0 →
      exec (.decode v) s = .next (afterFault s (.reservedBit (typeByte s.port)))) ∧
    (∀ t, exec (.decode v) s = .next t →
      (s.config.markerPolicy = .ignore → t.faults ≠ .notStream (typeByte s.port) :: s.faults) ∧
      (s.config.reservedPolicy = .ignore → t.faults ≠ .reservedBit (typeByte s.port) :: s.faults))

/-- The three invariants of every `Ok` response (R26, which the spec derives from R152 and R153), of a decoder-word form
(which runs with its word's own type byte and before TBL.INIT too, log entries 12 and 11) and of DECODE. -/
def Obligations.OkResponseInvariants : Prop :=
  ∀ (s t : State) (lay : Layout) (b : Byte) (ws wo : Nat) (i : Instr) (r : FrameRecord) (n : Nat),
    (encode i = .decoder (decoderWord (layoutCode lay) b) ∨
      (∃ v, i = .decode v ∧ Supports s v lay ∧ b = typeByte s.port)) →
    WidthsAre (s.config.spec lay) b ws wo → exec i s = .next t → t.response = some (.ok r n) →
    r.dataLength ≤ s.port.rem - headerLength ws wo (dlenFlag (s.config.spec lay) b) ∧
    (dlenFlag (s.config.spec lay) b = false → r.fin = true) ∧
    n = headerLength ws wo (dlenFlag (s.config.spec lay) b) + r.dataLength ∧ n ≤ s.port.rem

/-- A frame accepted with a zero-width offset has `data_offset = 0`, with a zero-width stream id `stream_id = 0`; a codec
read of no byte gives 0, and a codec write of 0 in no byte gives the empty sequence (R104). -/
def Obligations.ZeroWidthDefaults : Prop :=
  (∀ (v : Version) (s t : State) (lay : Layout) (ws wo : Nat) (r : FrameRecord) (n : Nat), Supports s v lay →
    WidthsAre (s.config.spec lay) (typeByte s.port) ws wo → exec (.decode v) s = .next t →
    t.response = some (.ok r n) → (wo = 0 → r.dataOffset = 0) ∧ (ws = 0 → r.streamId = 0)) ∧
  (∀ s : State, exec (.fwRdLe 0) s = .next (afterResponse s (.value 0)) ∧
    exec (.fwRdBe 0) s = .next (afterResponse s (.value 0)) ∧
    (s.port.codecValue = 0 → exec (.fwWrLe 0) s = .next (afterResponse s (.bytes [])) ∧
      exec (.fwWrBe 0) s = .next (afterResponse s (.bytes []))))

/-- The outcome of a request depends on no buffer byte but the header's, below `rem` (R42): with another buffer that agrees
there, whatever its payload, the outcome is the same (a model fault as an outcome is log entry 1). -/
def Obligations.OutcomeReadsOnlyHeader : Prop :=
  ∀ (v : Version) (s t : State) (lay : Layout) (ws wo : Nat) (m : Memory), Supports s v lay →
    WidthsAre (s.config.spec lay) (typeByte s.port) ws wo →
    (∀ a, a < s.port.rem → a < headerLength ws wo (dlenFlag (s.config.spec lay) (typeByte s.port)) →
      Memory.read m a = Memory.read s.port.buf a) →
    exec (.decode v) s = .next t → exec (.decode v) (s.withBuf m) = .next (t.withBuf m)

/-- The frame round trip (R132, which the spec derives from R120, R131 and R109), for every well-formed configuration, every
layout and every selector pair. -/
def Obligations.FrameRoundTrip : Prop :=
  ∀ (c : Config) (lay : Layout) (ss oo : Nat) (f d : Bool) (sid off len ws wo : Nat), c.wf = true →
    (c.spec lay).sidTab[ss]? = some ws → (c.spec lay).offTab[oo]? = some wo → sid < 256 ^ ws → off < 256 ^ wo →
    len < 65536 → (d = true ∨ f = true) →
    ∃ h, encodeHeader (c.spec lay) ss oo f d sid off len = .ok h ∧
      ∀ (v : Version) (s : State), s.config = c → Supports s v lay → Memory.beginsWith s.port.buf h →
        h.length + (if d then len else 0) ≤ s.port.rem →
        ∃ r n, exec (.decode v) s = .next (afterResponse s (.ok r n)) ∧ r.streamId.toNat = sid ∧
          r.dataOffset.toNat = off ∧ r.fin = f ∧ r.dataLength = if d then len else s.port.rem - h.length

/-- R133, which the spec derives from R131, R64 and R110: the same logical frame encoded for two layout records that differ
only in byte order has the same response under each, under the same `rem`. -/
def Obligations.ByteOrderSymmetry : Prop :=
  ∀ (s : State) (v w : Version) (ss oo : Nat) (f d : Bool) (sid off len : Nat) (h k : List Byte) (m n : Memory),
    s.config.wf = true → s.config.lle.order = .le → s.config.lbe = { s.config.lle with order := .be } →
    Supports s v .lle → Supports s w .lbe →
    encodeHeader s.config.lle ss oo f d sid off len = .ok h → encodeHeader s.config.lbe ss oo f d sid off len = .ok k →
    Memory.beginsWith m h → Memory.beginsWith n k →
    ∃ r, exec (.decode v) (s.withBuf m) = .next (afterResponse (s.withBuf m) r) ∧
      exec (.decode w) (s.withBuf n) = .next (afterResponse (s.withBuf n) r)

/-! ### The codec -/

/-- A codec read of up to 8 bytes gives the unsigned integer its bytes stand for, below `256^n` (R101, R102; the port of its
bytes is log entry 6). -/
def Obligations.CodecReadValue : Prop :=
  ∀ (n : BitVec 4) (s : State), n.toNat ≤ 8 →
    (∃ x, exec (.fwRdLe n) s = .next (afterResponse s (.value x)) ∧
      x.toNat = wireValue .le s.port.codecBytes 0 n.toNat ∧ x.toNat < 256 ^ n.toNat) ∧
    (∃ x, exec (.fwRdBe n) s = .next (afterResponse s (.value x)) ∧
      x.toNat = wireValue .be s.port.codecBytes 0 n.toNat ∧ x.toNat < 256 ^ n.toNat)

/-- A codec write of a value that fits gives its bytes in order; one that does not fit records F_ENC_RANGE with the value
and the count (R105, R106; the port of its value is log entry 6, the record log entry 1). -/
def Obligations.CodecWriteBytes : Prop :=
  ∀ (n : BitVec 4) (s : State), n.toNat ≤ 8 →
    (s.port.codecValue < 256 ^ n.toNat →
      (∃ bs, exec (.fwWrLe n) s = .next (afterResponse s (.bytes bs)) ∧ bs.length = n.toNat ∧
        ∀ k, (h : k < bs.length) → bs[k].toNat = s.port.codecValue / 256 ^ k % 256) ∧
      (∃ bs, exec (.fwWrBe n) s = .next (afterResponse s (.bytes bs)) ∧ bs.length = n.toNat ∧
        ∀ k, (h : k < bs.length) → bs[k].toNat = s.port.codecValue / 256 ^ (n.toNat - 1 - k) % 256)) ∧
    (256 ^ n.toNat ≤ s.port.codecValue →
      exec (.fwWrLe n) s = .next (afterFault s (.encRange s.port.codecValue n.toNat)) ∧
      exec (.fwWrBe n) s = .next (afterFault s (.encRange s.port.codecValue n.toNat)))

/-- The reserved counts 9 to 15 record F_BAD_WIDTH with the count, in all four operations (R78, R107; log entry 1). -/
def Obligations.CodecReservedCounts : Prop :=
  ∀ (n : BitVec 4) (s : State), 8 < n.toNat →
    exec (.fwRdLe n) s = .next (afterFault s (.badWidth n.toNat)) ∧
    exec (.fwRdBe n) s = .next (afterFault s (.badWidth n.toNat)) ∧
    exec (.fwWrLe n) s = .next (afterFault s (.badWidth n.toNat)) ∧
    exec (.fwWrBe n) s = .next (afterFault s (.badWidth n.toNat))

/-- R109, which the spec derives from R101, R102, R105 and R106: what a codec write gives reads back as the value, and what
a codec read gives writes back as the bytes, in both byte orders. -/
def Obligations.CodecRoundTrip : Prop :=
  (∀ (n : BitVec 4) (s : State) (v : Nat), n.toNat ≤ 8 → v < 256 ^ n.toNat →
    (∃ bs, exec (.fwWrLe n) (s.withCodecValue v) = .next (afterResponse (s.withCodecValue v) (.bytes bs)) ∧
      exec (.fwRdLe n) (s.withCodecBytes (Memory.ofBytes bs)) =
        .next (afterResponse (s.withCodecBytes (Memory.ofBytes bs)) (.value (BitVec.ofNat 64 v)))) ∧
    (∃ bs, exec (.fwWrBe n) (s.withCodecValue v) = .next (afterResponse (s.withCodecValue v) (.bytes bs)) ∧
      exec (.fwRdBe n) (s.withCodecBytes (Memory.ofBytes bs)) =
        .next (afterResponse (s.withCodecBytes (Memory.ofBytes bs)) (.value (BitVec.ofNat 64 v))))) ∧
  (∀ (n : BitVec 4) (s : State) (bs : List Byte), n.toNat ≤ 8 → bs.length = n.toNat →
    (∃ x, exec (.fwRdLe n) (s.withCodecBytes (Memory.ofBytes bs)) =
        .next (afterResponse (s.withCodecBytes (Memory.ofBytes bs)) (.value x)) ∧
      exec (.fwWrLe n) (s.withCodecValue x.toNat) = .next (afterResponse (s.withCodecValue x.toNat) (.bytes bs))) ∧
    (∃ x, exec (.fwRdBe n) (s.withCodecBytes (Memory.ofBytes bs)) =
        .next (afterResponse (s.withCodecBytes (Memory.ofBytes bs)) (.value x)) ∧
      exec (.fwWrBe n) (s.withCodecValue x.toNat) = .next (afterResponse (s.withCodecValue x.toNat) (.bytes bs))))

/-- R110, which the spec derives from R101 and R102: a big-endian read is the little-endian read of the reversed bytes, and
for at most one byte of the bytes themselves. -/
def Obligations.CodecByteOrder : Prop :=
  ∀ (n : BitVec 4) (s : State) (bs : List Byte), n.toNat ≤ 8 → bs.length = n.toNat →
    ∃ x, exec (.fwRdBe n) (s.withCodecBytes (Memory.ofBytes bs)) =
        .next (afterResponse (s.withCodecBytes (Memory.ofBytes bs)) (.value x)) ∧
      exec (.fwRdLe n) (s.withCodecBytes (Memory.ofBytes bs.reverse)) =
        .next (afterResponse (s.withCodecBytes (Memory.ofBytes bs.reverse)) (.value x)) ∧
      (n.toNat ≤ 1 → exec (.fwRdLe n) (s.withCodecBytes (Memory.ofBytes bs)) =
        .next (afterResponse (s.withCodecBytes (Memory.ofBytes bs)) (.value x)))

/-- The status codes of the response port (R24, R200; the port's value as a function of the response is the model's form).
-/
def Obligations.StatusCodes : Prop :=
  (∀ r n, Response.status (.ok r n) = some 0) ∧ Response.status (.fail .truncHdr) = some 1 ∧
  Response.status (.fail .truncPayload) = some 2 ∧ Response.status (.fail .ambigLen) = some 3 ∧
  ∀ k, Response.status (.fail k) ≠ some 0
end

