-- ==== Sys2Proof/Laws/State.lean ====
section
/-! SUPPORT. One lemma per field and per update of State, each true by definition, so that no later proof unfolds a record
update; and the inversion lemmas of `finish`, `retire` and `exec`. -/

namespace Sys2Proof.Machine

/-! ### respond -/

@[simp] theorem State.respond_config (s : State) (r : Response) : (s.respond r).config = s.config := rfl
@[simp] theorem State.respond_tableReady (s : State) (r : Response) : (s.respond r).tableReady = s.tableReady := rfl
@[simp] theorem State.respond_dt (s : State) (r : Response) : (s.respond r).dt = s.dt := rfl
@[simp] theorem State.respond_port (s : State) (r : Response) : (s.respond r).port = s.port := rfl
@[simp] theorem State.respond_waiting (s : State) (r : Response) : (s.respond r).waiting = s.waiting := rfl
@[simp] theorem State.respond_response (s : State) (r : Response) : (s.respond r).response = some r := rfl
@[simp] theorem State.respond_faults (s : State) (r : Response) : (s.respond r).faults = s.faults := rfl

/-! ### raiseFault -/

@[simp] theorem State.raiseFault_config (s : State) (f : ModelFault) : (s.raiseFault f).config = s.config := rfl
@[simp] theorem State.raiseFault_tableReady (s : State) (f : ModelFault) :
    (s.raiseFault f).tableReady = s.tableReady := rfl
@[simp] theorem State.raiseFault_dt (s : State) (f : ModelFault) : (s.raiseFault f).dt = s.dt := rfl
@[simp] theorem State.raiseFault_port (s : State) (f : ModelFault) : (s.raiseFault f).port = s.port := rfl
@[simp] theorem State.raiseFault_waiting (s : State) (f : ModelFault) : (s.raiseFault f).waiting = s.waiting := rfl
@[simp] theorem State.raiseFault_response (s : State) (f : ModelFault) : (s.raiseFault f).response = none := rfl
@[simp] theorem State.raiseFault_faults (s : State) (f : ModelFault) : (s.raiseFault f).faults = f :: s.faults := rfl

/-! ### setTable -/

@[simp] theorem State.setTable_config (s : State) (d : Table) : (s.setTable d).config = s.config := rfl
@[simp] theorem State.setTable_tableReady (s : State) (d : Table) : (s.setTable d).tableReady = true := rfl
@[simp] theorem State.setTable_dt (s : State) (d : Table) : (s.setTable d).dt = d := rfl
@[simp] theorem State.setTable_port (s : State) (d : Table) : (s.setTable d).port = s.port := rfl
@[simp] theorem State.setTable_waiting (s : State) (d : Table) : (s.setTable d).waiting = s.waiting := rfl
@[simp] theorem State.setTable_response (s : State) (d : Table) : (s.setTable d).response = none := rfl
@[simp] theorem State.setTable_faults (s : State) (d : Table) : (s.setTable d).faults = s.faults := rfl

/-! ### The states of the statements -/

@[simp] theorem afterResponse_eq (s : State) (r : Response) : afterResponse s r = s.respond r := rfl
@[simp] theorem afterFault_eq (s : State) (f : ModelFault) : afterFault s f = s.raiseFault f := rfl

@[simp] theorem State.withBuf_config (s : State) (m : Memory) : (s.withBuf m).config = s.config := rfl
@[simp] theorem State.withBuf_tableReady (s : State) (m : Memory) : (s.withBuf m).tableReady = s.tableReady := rfl
@[simp] theorem State.withBuf_dt (s : State) (m : Memory) : (s.withBuf m).dt = s.dt := rfl
@[simp] theorem State.withBuf_buf (s : State) (m : Memory) : (s.withBuf m).port.buf = m := rfl
@[simp] theorem State.withBuf_rem (s : State) (m : Memory) : (s.withBuf m).port.rem = s.port.rem := rfl
@[simp] theorem State.withCodecBytes_codecBytes (s : State) (m : Memory) :
    (s.withCodecBytes m).port.codecBytes = m := rfl
@[simp] theorem State.withCodecValue_codecValue (s : State) (v : Nat) :
    (s.withCodecValue v).port.codecValue = v := rfl

/-! ### retire -/

@[simp] theorem State.retire_config (s : State) : s.retire.config = s.config := by
  unfold State.retire; split <;> rfl
@[simp] theorem State.retire_tableReady (s : State) : s.retire.tableReady = s.tableReady := by
  unfold State.retire; split <;> rfl
@[simp] theorem State.retire_dt (s : State) : s.retire.dt = s.dt := by
  unfold State.retire; split <;> rfl
@[simp] theorem State.retire_response (s : State) : s.retire.response = s.response := by
  unfold State.retire; split <;> rfl
@[simp] theorem State.retire_faults (s : State) : s.retire.faults = s.faults := by
  unfold State.retire; split <;> rfl

/-! ### finish and exec -/

/-- `finish` is the outcome the statements name. -/
theorem State.finish_eq_endsAs (s : State) (e : Except Ending Response) : s.finish e = endsAs s e := by
  rcases e with (_ | _ | _) | _ <;> rfl

/-- What `finish` can answer: a response or a recorded fault. -/
theorem State.finish_cases {s t : State} {e : Except Ending Response} (h : s.finish e = .next t) :
    (∃ r, (e = .ok r ∨ ∃ k, e = .error (.fail k) ∧ r = .fail k) ∧ t = s.respond r) ∨
      (∃ f, e = .error (.raise f) ∧ t = s.raiseFault f) := by
  rcases e with (k | f | g) | r <;> simp only [State.finish, Host.Outcome.next.injEq, reduceCtorEq] at h
  · exact .inl ⟨.fail k, .inr ⟨k, rfl, rfl⟩, h.symm⟩
  · exact .inr ⟨f, rfl, h.symm⟩
  · exact .inl ⟨r, .inl rfl, h.symm⟩

/-- How the request of an instruction other than TBL.INIT ends, as a function of the state. -/
def ending (s : State) : Instr → Except Ending Response
  | .tblInit _ => .error (.raise .tableLocked)
  | .rsvLayout3 _ => .error (.raise .badLayout)
  | .fwRdLe n => (codecRead .le (Memory.readN s.port.codecBytes 0 n.toNat) n.toNat).map .value
  | .fwRdBe n => (codecRead .be (Memory.readN s.port.codecBytes 0 n.toNat) n.toNat).map .value
  | .fwWrLe n => (codecWrite .le s.port.codecValue n.toNat).map .bytes
  | .fwWrBe n => (codecWrite .be s.port.codecValue n.toNat).map .bytes
  | .sel v => (selectLayout s v).map .layout
  | .decode v => (selectLayout s v).bind fun code => decodeByCode s code
  | .decLleX m f oo ss r => formEnding s .lle (legacyByte m f true oo ss r)
  | .decLleI m oo ss r => formEnding s .lle (legacyByte m true false oo ss r)
  | .illLleAmbig m oo ss r => formEnding s .lle (legacyByte m false false oo ss r)
  | .decLbeX m f oo ss r => formEnding s .lbe (legacyByte m f true oo ss r)
  | .decLbeI m oo ss r => formEnding s .lbe (legacyByte m true false oo ss r)
  | .illLbeAmbig m oo ss r => formEnding s .lbe (legacyByte m false false oo ss r)
  | .decModX pp f ss oo => formEnding s .mod (modernByte pp f ss oo true)
  | .decModI pp ss oo => formEnding s .mod (modernByte pp true ss oo false)
  | .illModAmbig pp ss oo => formEnding s .mod (modernByte pp false ss oo false)
where
  formEnding (s : State) (L : Layout) (t : Byte) : Except Ending Response :=
    if s.port.rem < 1 then .error (.fail .truncHdr) else decodeTyped s.config (s.config.spec L) t s.port

/-- Every instruction but a first TBL.INIT ends its request in one way that the state determines. -/
theorem exec_eq_finish (i : Instr) (s : State) (h : (∀ d, i ≠ .tblInit d) ∨ s.tableReady = true) :
    exec i s = s.finish (ending s i) := by
  cases i with
  | tblInit d =>
    rcases h with h | h
    · exact absurd rfl (h d)
    · simp [exec, execTblInit, h, ending, State.finish]
  | _ => rfl

/-- A first TBL.INIT. -/
theorem exec_tblInit_first (d : List (Version × Layout)) (s : State) (h : s.tableReady = false) :
    exec (.tblInit d) s = .next (s.setTable (Table.build d)) := by
  simp [exec, execTblInit, h]

end Sys2Proof.Machine
end

