-- ==== Sys2Proof/Laws/Memory.lean ====
section
/-! SUPPORT. The buffer: a read after a write, and every operation keeps the canonical form. -/

namespace Sys2Proof.Machine

theorem Memory.wfFrom_mono {lo lo' : Nat} {m : Memory} (h : Memory.wfFrom lo m = true) (hl : lo' ≤ lo) :
    Memory.wfFrom lo' m = true := by
  cases m with
  | nil => rfl
  | cons p m =>
    obtain ⟨k, b⟩ := p
    simp only [Memory.wfFrom, Bool.and_eq_true, decide_eq_true_eq] at h ⊢
    exact ⟨⟨hl.trans h.1.1, h.1.2⟩, h.2⟩

/-- An address below every listed one is unlisted. -/
theorem Memory.read_below {lo a : Nat} {m : Memory} (h : Memory.wfFrom lo m = true) (ha : a < lo) :
    Memory.read m a = blankByte := by
  induction m generalizing lo with
  | nil => rfl
  | cons p m ih =>
    obtain ⟨k, b⟩ := p
    simp only [Memory.wfFrom, Bool.and_eq_true, decide_eq_true_eq] at h
    simp only [Memory.read]
    rw [if_neg (by omega)]
    exact ih h.2 (by omega)

/-- A write keeps the canonical form. -/
theorem Memory.write_wfFrom {lo a : Nat} {b : Byte} {m : Memory} (h : Memory.wfFrom lo m = true) (ha : lo ≤ a) :
    Memory.wfFrom lo (Memory.write m a b) = true := by
  induction m generalizing lo with
  | nil =>
    unfold Memory.write
    split
    · rfl
    · simp_all [Memory.wfFrom]
  | cons p m ih =>
    obtain ⟨k, c⟩ := p
    have h' := h
    simp only [Memory.wfFrom, Bool.and_eq_true, decide_eq_true_eq] at h
    unfold Memory.write
    split
    · split
      · exact h'
      · simp_all [Memory.wfFrom]
    · split
      · split
        · exact Memory.wfFrom_mono h.2 (by omega)
        · simp_all [Memory.wfFrom]
      · simp only [Memory.wfFrom, Bool.and_eq_true, decide_eq_true_eq]
        exact ⟨h.1, ih h.2 (by omega)⟩

theorem Memory.write_wf {m : Memory} (a : Nat) (b : Byte) (h : Memory.wf m = true) :
    Memory.wf (Memory.write m a b) = true :=
  Memory.write_wfFrom h (Nat.zero_le a)

theorem Memory.writeN_wf {m : Memory} (i : Nat) (bs : List Byte) (h : Memory.wf m = true) :
    Memory.wf (Memory.writeN m i bs) = true := by
  induction bs generalizing m i with
  | nil => exact h
  | cons b bs ih => exact ih (i + 1) (Memory.write_wf i b h)

theorem Memory.ofBytes_wf (bs : List Byte) : Memory.wf (Memory.ofBytes bs) = true := Memory.writeN_wf 0 bs rfl

/-- The memories of the machine after reset have the canonical form. -/
theorem State.reset_memory_wf :
    Memory.wf State.reset.port.buf = true ∧ Memory.wf State.reset.port.codecBytes = true := ⟨rfl, rfl⟩

/-- A read after a write. -/
theorem Memory.read_writeFrom {lo a c : Nat} {b : Byte} {m : Memory} (h : Memory.wfFrom lo m = true) :
    Memory.read (Memory.write m a b) c = if c = a then b else Memory.read m c := by
  induction m generalizing lo with
  | nil =>
    unfold Memory.write
    by_cases hc : c = a
    · subst hc
      split <;> simp_all [Memory.read]
    · split <;> simp [Memory.read, Ne.symm hc]
  | cons p m ih =>
    obtain ⟨k, d⟩ := p
    have h' := h
    simp only [Memory.wfFrom, Bool.and_eq_true, decide_eq_true_eq] at h
    unfold Memory.write
    split
    · rename_i hak
      have hb : Memory.read ((k, d) :: m) a = blankByte :=
        Memory.read_below (lo := k) (by simp [Memory.wfFrom, h.1.2, h.2]) hak
      split
      · split
        · simp_all
        · rfl
      · by_cases hc : c = a
        · simp [Memory.read, hc]
        · simp [Memory.read, hc, Ne.symm hc]
    · split
      · rename_i hak
        subst hak
        split
        · by_cases hc : c = a
          · subst hc
            simp only [if_true]
            rw [Memory.read_below h.2 (by omega)]
            simp_all
          · simp [Memory.read, hc, Ne.symm hc]
        · by_cases hc : c = a
          · simp [Memory.read, hc]
          · simp [Memory.read, hc, Ne.symm hc]
      · simp only [Memory.read]
        rw [ih h.2]
        by_cases hk : k = c
        · simp [hk]
          intro hca
          omega
        · simp [hk]

theorem Memory.read_write {m : Memory} (h : Memory.wf m = true) (a c : Nat) (b : Byte) :
    Memory.read (Memory.write m a b) c = if c = a then b else Memory.read m c :=
  Memory.read_writeFrom (lo := 0) h

/-- A read after writing a byte sequence. -/
theorem Memory.read_writeN {m : Memory} (h : Memory.wf m = true) (i : Nat) (bs : List Byte) (c : Nat) :
    Memory.read (Memory.writeN m i bs) c = if i ≤ c ∧ c < i + bs.length then bs.getD (c - i) blankByte else
      Memory.read m c := by
  induction bs generalizing m i with
  | nil =>
    rw [if_neg (by simp only [List.length_nil]; omega)]
    rfl
  | cons b bs ih =>
    simp only [Memory.writeN]
    rw [ih (Memory.write_wf i b h), Memory.read_write h]
    by_cases h1 : c = i
    · subst h1
      simp
    · by_cases h2 : i + 1 ≤ c
      · have : c - i = (c - (i + 1)) + 1 := by omega
        rw [this]
        simp only [List.getD_cons_succ, List.length_cons]
        by_cases h3 : c < i + 1 + bs.length
        · rw [if_pos ⟨h2, h3⟩, if_pos (by omega)]
        · rw [if_neg (by omega), if_neg h1, if_neg (by omega)]
      · rw [if_neg (by omega), if_neg h1, if_neg (by omega)]

theorem Memory.read_ofBytes (bs : List Byte) (c : Nat) :
    Memory.read (Memory.ofBytes bs) c = bs.getD c blankByte := by
  unfold Memory.ofBytes
  rw [Memory.read_writeN rfl]
  simp only [Nat.zero_le, true_and, Nat.zero_add, Nat.sub_zero]
  split
  · rfl
  · rw [List.getD_eq_default _ _ (by omega)]
    rfl

@[simp] theorem Memory.readN_length (m : Memory) (i n : Nat) : (Memory.readN m i n).length = n := by
  simp [Memory.readN]

@[simp] theorem Memory.readN_getElem (m : Memory) (i n k : Nat) (h : k < (Memory.readN m i n).length) :
    (Memory.readN m i n)[k] = Memory.read m (i + k) := by
  simp [Memory.readN]

/-- A snapshot built from a byte sequence reads back as that sequence. -/
theorem Memory.readN_ofBytes (bs : List Byte) : Memory.readN (Memory.ofBytes bs) 0 bs.length = bs := by
  refine List.ext_getElem (by simp) fun k h₁ h₂ => ?_
  simp only [Memory.readN_getElem, Memory.read_ofBytes, Nat.zero_add]
  rw [List.getD_eq_getElem _ _ h₂]

end Sys2Proof.Machine
end

