-- ==== Sys2Proof/Laws/Codec.lean ====
section
/-! SUPPORT. The codec: the value of a byte sequence as the sums of R43, its bound, and what a read and a write answer. -/

namespace Sys2Proof.Machine

theorem leValueFrom_eq (k : Nat) (bs : List Byte) : leValueFrom k bs = 256 ^ k * leValue bs := by
  induction bs generalizing k with
  | nil => simp [leValueFrom, leValue]
  | cons b bs ih =>
    simp only [leValue, leValueFrom]
    rw [ih (k + 1), ih (0 + 1)]
    ring

theorem leValue_cons (b : Byte) (bs : List Byte) : leValue (b :: bs) = b.toNat + 256 * leValue bs := by
  simp only [leValue, leValueFrom]
  rw [leValueFrom_eq]
  simp [leValue]

theorem leValue_append (bs cs : List Byte) : leValue (bs ++ cs) = leValue bs + 256 ^ bs.length * leValue cs := by
  induction bs with
  | nil => simp [leValue, leValueFrom]
  | cons b bs ih =>
    simp only [List.cons_append, leValue_cons, ih, List.length_cons]
    ring

theorem leValue_lt (bs : List Byte) : leValue bs < 256 ^ bs.length := by
  induction bs with
  | nil => simp [leValue, leValueFrom]
  | cons b bs ih =>
    have hb : b.toNat < 256 := b.isLt
    rw [leValue_cons, List.length_cons, pow_succ]
    omega

theorem beValue_append_singleton (bs : List Byte) (b : Byte) :
    beValue (bs ++ [b]) = beValue bs * 256 + b.toNat := by
  simp [beValue]

/-- The big-endian value is the little-endian value of the reversed sequence. -/
theorem beValue_eq_leValue_reverse (bs : List Byte) : beValue bs = leValue bs.reverse := by
  induction bs using List.reverseRecOn with
  | nil => rfl
  | append_singleton bs b ih =>
    rw [beValue_append_singleton, ih, List.reverse_append, List.reverse_singleton, List.singleton_append, leValue_cons]
    ring

/-- A read value is below `256^n` (R103). -/
theorem fieldValue_lt (o : ByteOrder) (bs : List Byte) : fieldValue o bs < 256 ^ bs.length := by
  cases o with
  | le => exact leValue_lt bs
  | be =>
    show beValue bs < _
    rw [beValue_eq_leValue_reverse, ← List.length_reverse]
    exact leValue_lt _

theorem leValue_readN (m : Memory) (i n : Nat) :
    leValue (Memory.readN m i n) = ∑ k ∈ Finset.range n, (Memory.read m (i + k)).toNat * 256 ^ k := by
  induction n with
  | zero => rfl
  | succ n ih =>
    rw [Finset.sum_range_succ, ← ih]
    have : Memory.readN m i (n + 1) = Memory.readN m i n ++ [Memory.read m (i + n)] := by
      simp [Memory.readN, List.range_succ]
    rw [this, leValue_append, Memory.readN_length, leValue_cons]
    simp [leValue, leValueFrom]
    ring

theorem beValue_readN (m : Memory) (i n : Nat) :
    beValue (Memory.readN m i n) = ∑ k ∈ Finset.range n, (Memory.read m (i + k)).toNat * 256 ^ (n - 1 - k) := by
  induction n with
  | zero => rfl
  | succ n ih =>
    have : Memory.readN m i (n + 1) = Memory.readN m i n ++ [Memory.read m (i + n)] := by
      simp [Memory.readN, List.range_succ]
    rw [this, beValue_append_singleton, ih, Finset.sum_range_succ, Finset.sum_mul]
    congr 1
    · refine Finset.sum_congr rfl fun k hk => ?_
      have hk' := Finset.mem_range.1 hk
      rw [show n + 1 - 1 - k = (n - 1 - k) + 1 by omega]
      ring
    · simp

/-- The codec's value of a span is the sum of R43. -/
theorem fieldValue_readN (o : ByteOrder) (m : Memory) (i n : Nat) :
    fieldValue o (Memory.readN m i n) = wireValue o m i n := by
  cases o with
  | le => exact leValue_readN m i n
  | be => exact beValue_readN m i n

theorem wireValue_lt (o : ByteOrder) (m : Memory) (i n : Nat) : wireValue o m i n < 256 ^ n := by
  rw [← fieldValue_readN]
  simpa using fieldValue_lt o (Memory.readN m i n)

theorem pow256_le {n : Nat} (h : n ≤ 8) : 256 ^ n ≤ 2 ^ 64 := by
  calc 256 ^ n ≤ 256 ^ 8 := Nat.pow_le_pow_right (by norm_num) h
    _ = 2 ^ 64 := by norm_num

/-- A field of at most 8 bytes fits 64 bits, so the codec's result is its value. -/
theorem toNat_wireValue (o : ByteOrder) (m : Memory) (i n : Nat) (h : n ≤ 8) :
    (BitVec.ofNat 64 (wireValue o m i n)).toNat = wireValue o m i n := by
  rw [BitVec.toNat_ofNat]
  exact Nat.mod_eq_of_lt ((wireValue_lt o m i n).trans_le (pow256_le h))

/-- What a codec read answers (R101, R102). -/
theorem codecRead_eq (o : ByteOrder) (b : List Byte) (n : Nat) :
    codecRead o b n = if 8 < n then .error (.raise (.badWidth n)) else .ok (BitVec.ofNat 64 (fieldValue o b)) := rfl

/-- What a codec write answers (R105, R106). -/
theorem codecWrite_eq (o : ByteOrder) (v n : Nat) :
    codecWrite o v n = if 8 < n then .error (.raise (.badWidth n))
      else if 256 ^ n ≤ v then .error (.raise (.encRange v n)) else .ok (fieldBytes o v n) := rfl

@[simp] theorem fieldBytes_length (o : ByteOrder) (v n : Nat) : (fieldBytes o v n).length = n := by
  cases o <;> simp [fieldBytes, leBytes, beBytes]

end Sys2Proof.Machine
end

