-- ==== Sys2Proof/Laws/Table.lean ====
section
/-! SUPPORT. The dispatch table: lookup after a set, and what building it keeps. -/

namespace Sys2Proof.Machine

@[simp] theorem Table.lookup_set (t : Table) (v u : Version) (code : BitVec 2) :
    Table.lookup (Table.set t v code) u = if u = v then some code else Table.lookup t u := by
  induction t with
  | nil => simp [Table.set, Table.lookup, eq_comm]
  | cons p t ih =>
    obtain ⟨w, c⟩ := p
    simp only [Table.set]
    split
    · rename_i hw
      subst hw
      simp only [Table.lookup, eq_comm]
      split <;> rfl
    · rename_i hw
      simp only [Table.lookup, ih]
      split
      · rename_i hu
        subst hu
        rw [if_neg hw]
      · rfl

theorem Table.mem_keys_set {t : Table} {v u : Version} {code : BitVec 2} :
    u ∈ (Table.set t v code).map Prod.fst ↔ u = v ∨ u ∈ t.map Prod.fst := by
  induction t with
  | nil => simp [Table.set]
  | cons p t ih =>
    obtain ⟨w, c⟩ := p
    simp only [Table.set]
    split
    · rename_i hw
      subst hw
      simp
    · simp only [List.map_cons, List.mem_cons, ih]
      tauto

/-- A property of entries that the new entry has is kept by a set. -/
theorem Table.all_set {t : Table} {v : Version} {code : BitVec 2} {P : Version × BitVec 2 → Bool}
    (h : t.all P = true) (hn : P (v, code) = true) : (Table.set t v code).all P = true := by
  induction t with
  | nil => simpa [Table.set] using hn
  | cons p t ih =>
    obtain ⟨w, c⟩ := p
    simp only [List.all_cons, Bool.and_eq_true] at h
    simp only [Table.set]
    split
    · rename_i hw
      subst hw
      simp [hn, h.2]
    · simp [h.1, ih h.2]

theorem Table.set_wf {t : Table} {v : Version} {code : BitVec 2} (h : Table.wf t = true) (hc : code ≠ 0b11) :
    Table.wf (Table.set t v code) = true := by
  simp only [Table.wf, Bool.and_eq_true, decide_eq_true_eq] at h ⊢
  refine ⟨?_, Table.all_set h.2 (by simpa using hc)⟩
  have hk := h.1
  clear h
  induction t with
  | nil => simp [Table.set]
  | cons p t ih =>
    obtain ⟨w, c⟩ := p
    simp only [List.map_cons, List.nodup_cons] at hk
    simp only [Table.set]
    split
    · simp [hk]
    · rename_i hw
      simp only [List.map_cons, List.nodup_cons]
      refine ⟨?_, ih hk.2⟩
      rw [Table.mem_keys_set]
      rintro (h | h)
      · exact hw h
      · exact hk.1 h

theorem layoutCode_ne_reserved (lay : Layout) : layoutCode lay ≠ 0b11 := by cases lay <;> decide

@[simp] theorem layoutOfCode_layoutCode (lay : Layout) : layoutOfCode (layoutCode lay) = some lay := by
  cases lay <;> rfl

/-- A built table is a map without the reserved code (R22). -/
theorem Table.build_wf (d : List (Version × Layout)) : Table.wf (Table.build d) = true := by
  suffices H : ∀ (d : List (Version × Layout)) (t : Table), Table.wf t = true →
      Table.wf (d.foldl (fun t p => Table.set t p.1 (layoutCode p.2)) t) = true from H d [] rfl
  intro d
  induction d with
  | nil => intro t h; exact h
  | cons p d ih => intro t h; exact ih _ (Table.set_wf h (layoutCode_ne_reserved p.2))

/-- A built table's tokens are `DISPATCH`'s. -/
theorem Table.build_all {d : List (Version × Layout)} {P : Version → Bool} (h : (d.all fun p => P p.1) = true) :
    ((Table.build d).all fun p => P p.1) = true := by
  suffices H : ∀ (d : List (Version × Layout)) (t : Table), (d.all fun p => P p.1) = true →
      (t.all fun p => P p.1) = true →
      ((d.foldl (fun t p => Table.set t p.1 (layoutCode p.2)) t).all fun p => P p.1) = true from H d [] h rfl
  intro d
  induction d with
  | nil => intro t _ h; exact h
  | cons p d ih =>
    intro t hd ht
    simp only [List.all_cons, Bool.and_eq_true] at hd
    exact ih _ hd.2 (Table.all_set ht hd.1)

end Sys2Proof.Machine
end

