-- ==== Sys2Proof/Laws/Headers.lean ====
section
/-! SUPPORT. What each step of DecodeCommon answers (41_header_layouts.md R120), one lemma per function. -/

namespace Sys2Proof.Machine

theorem headerBound_eq (rem p w : Nat) :
    headerBound rem p w = if p + w > rem then .error (.fail .truncHdr) else .ok () := rfl

theorem memRead_inside {q : Request} {i n : Nat} (h : i + n ≤ q.rem) : memRead q i n = .ok (Memory.readN q.buf i n) :=
  if_pos h

/-- A header field: TRUNC_HDR past `rem`, F_BAD_WIDTH above 8 bytes, otherwise the value of its bytes. -/
theorem readField_eq (o : ByteOrder) (q : Request) (p w : Nat) :
    readField o q p w = if p + w > q.rem then .error (.fail .truncHdr)
      else if 8 < w then .error (.raise (.badWidth w)) else .ok (BitVec.ofNat 64 (wireValue o q.buf p w)) := by
  unfold readField
  rw [headerBound_eq]
  by_cases h : p + w > q.rem
  · simp [h, Except.bind]
  · rw [if_neg h, if_neg h]
    simp only [Except.bind]
    rw [memRead_inside (by omega)]
    simp only [codecRead_eq, fieldValue_readN]

/-- The length field. -/
theorem readLength_eq (o : ByteOrder) (q : Request) (p : Nat) (d : Bool) :
    readLength o q p d = if d then (if p + 2 > q.rem then .error (.fail .truncHdr)
      else .ok (some (wireValue o q.buf p 2))) else .ok none := by
  unfold readLength
  cases d with
  | false => rfl
  | true =>
    simp only [if_true, readField_eq, lengthWidth]
    split
    · rfl
    · simp only [Nat.reduceLT, if_false, Except.map]
      rw [toNat_wireValue o q.buf p 2 (by omega)]

/-- Steps 3 to 7, for widths a table can hold (R160: the per-field checks pass exactly when the header fits). -/
theorem decodeFields_eq (o : ByteOrder) (q : Request) (ws wo : Nat) (f d : Bool) (hs : ws ≤ 8) (ho : wo ≤ 8) :
    decodeFields o q ws wo f d =
      if q.rem < headerLength ws wo d then .error (.fail .truncHdr)
      else if d = false ∧ f = false then .error (.fail .ambigLen)
      else if d = true ∧ q.rem < headerLength ws wo d + wireLength o q ws wo d then .error (.fail .truncPayload)
      else .ok (.ok (wireFrame o q.buf ws wo (wireLength o q ws wo d) f)
        (headerLength ws wo d + wireLength o q ws wo d)) := by
  have hge : 1 + ws + wo ≤ headerLength ws wo d := Nat.le_add_right _ _
  unfold decodeFields
  rw [readField_eq, readField_eq, readLength_eq]
  by_cases h1 : 1 + ws > q.rem
  · rw [if_pos h1, if_pos (show q.rem < headerLength ws wo d by omega)]
    rfl
  rw [if_neg h1, if_neg (by omega)]
  simp only [Except.bind]
  by_cases h2 : 1 + ws + wo > q.rem
  · rw [if_pos h2, if_pos (show q.rem < headerLength ws wo d by omega)]
  rw [if_neg h2, if_neg (by omega)]
  simp only
  cases d with
  | false =>
    have hh : headerLength ws wo false = 1 + ws + wo := rfl
    have hw : wireLength o q ws wo false = q.rem - (1 + ws + wo) := rfl
    rw [hh, hw]
    rw [if_neg (show ¬ (q.rem < 1 + ws + wo) by omega)]
    cases f with
    | false => simp [inferLength]
    | true =>
      simp only [inferLength, payloadBound]
      simp only [Bool.false_eq_true, if_false, if_true, false_and, and_false, reduceCtorEq]
      rw [if_neg (by omega)]
      rfl
  | true =>
    have hh : headerLength ws wo true = 1 + ws + wo + 2 := rfl
    have hw : wireLength o q ws wo true = wireValue o q.buf (1 + ws + wo) 2 := rfl
    rw [hh, hw]
    simp only [if_true]
    by_cases h3 : 1 + ws + wo + 2 > q.rem
    · rw [if_pos h3, if_pos (by omega)]
    · rw [if_neg h3, if_neg (show ¬ (q.rem < 1 + ws + wo + 2) by omega)]
      simp only [inferLength, payloadBound]
      by_cases h4 : 1 + ws + wo + 2 + wireValue o q.buf (1 + ws + wo) 2 > q.rem
      · rw [if_pos h4]
        simp [Except.map, h4]
      · rw [if_neg h4]
        simp only [Except.map, true_and, reduceCtorEq, false_and, if_false]
        rw [if_neg (by omega)]
        rfl

/-- Steps 3 to 7 for a width above 8, which no well-formed table holds (R107): no frame is accepted. -/
theorem decodeFields_bad (o : ByteOrder) (q : Request) (ws wo : Nat) (f d : Bool) (h : 8 < ws ∨ 8 < wo) :
    decodeFields o q ws wo f d = if 1 + ws > q.rem then .error (.fail .truncHdr)
      else if 8 < ws then .error (.raise (.badWidth ws))
      else if 1 + ws + wo > q.rem then .error (.fail .truncHdr)
      else .error (.raise (.badWidth wo)) := by
  unfold decodeFields
  rw [readField_eq, readField_eq]
  by_cases h1 : 1 + ws > q.rem
  · rw [if_pos h1, if_pos h1]
    rfl
  rw [if_neg h1, if_neg h1]
  by_cases h2 : 8 < ws
  · rw [if_pos h2, if_pos h2]
    rfl
  rw [if_neg h2, if_neg h2]
  by_cases h3 : 1 + ws + wo > q.rem
  · rw [if_pos h3, if_pos h3]
    rfl
  · rw [if_neg h3, if_neg h3, if_pos (by omega)]
    rfl

theorem markerFaults_iff {c : Config} {L : LayoutSpec} {t : Byte} :
    markerFaults c L t = true ↔ c.markerPolicy = .fault ∧ t &&& L.markerMask ≠ L.markerVal := by
  simp [markerFaults]

theorem reservedFaults_iff {c : Config} {L : LayoutSpec} {t : Byte} :
    reservedFaults c L t = true ↔ c.reservedPolicy = .fault ∧ t &&& L.reservedMask ≠ 0 := by
  simp [reservedFaults]

/-- A type byte that passes both checks. -/
theorem typeByteOk_iff {c : Config} {L : LayoutSpec} {t : Byte} :
    TypeByteOk c L t ↔ markerFaults c L t = false ∧ reservedFaults c L t = false := by
  unfold TypeByteOk markerFaults reservedFaults
  cases c.markerPolicy <;> cases c.reservedPolicy <;> simp

/-- The selector of a field within the byte is below the number of its values. -/
theorem bitField_lt (t : Byte) (lo n : Nat) : bitField t lo n < 2 ^ n := Nat.mod_lt _ (Nat.two_pow_pos n)

/-- A well-formed record gives every type byte widths of at most 8 (R66). -/
theorem LayoutSpec.wf_widths {L : LayoutSpec} (h : L.wf = true) (t : Byte) :
    ∃ ws wo, WidthsAre L t ws wo ∧ ws ≤ 8 ∧ wo ≤ 8 := by
  simp only [LayoutSpec.wf, Bool.and_eq_true, decide_eq_true_eq, List.all_eq_true] at h
  obtain ⟨⟨⟨⟨⟨⟨⟨-, -⟩, -⟩, hs⟩, ho⟩, hsa⟩, hoa⟩, -⟩ := h
  have h1 : sidSelector L t < L.sidTab.length := hs ▸ bitField_lt t _ _
  have h2 : offSelector L t < L.offTab.length := ho ▸ bitField_lt t _ _
  refine ⟨L.sidTab[sidSelector L t], L.offTab[offSelector L t], ⟨?_, ?_⟩, ?_, ?_⟩
  · exact List.getElem?_eq_getElem h1
  · exact List.getElem?_eq_getElem h2
  · exact hsa _ (List.getElem_mem h1)
  · exact hoa _ (List.getElem_mem h2)

/-- A configuration's records are well formed. -/
theorem Config.wf_spec {c : Config} (h : c.wf = true) (lay : Layout) : (c.spec lay).wf = true := by
  simp only [Config.wf, Bool.and_eq_true] at h
  cases lay
  · exact h.1.1
  · exact h.1.2
  · exact h.2

/-- DecodeCommon past the type byte, for a type byte whose widths are known. -/
theorem decodeTyped_eq {c : Config} {L : LayoutSpec} {t : Byte} {q : Request} {ws wo : Nat} (h : WidthsAre L t ws wo) :
    decodeTyped c L t q =
      if markerFaults c L t then .error (.raise (.notStream t))
      else if reservedFaults c L t then .error (.raise (.reservedBit t))
      else decodeFields L.order q ws wo (finFlag L t) (dlenFlag L t) := by
  unfold decodeTyped
  rw [h.1, h.2]

/-- DecodeCommon reads the type byte and goes on. -/
theorem decodeCommon_eq (c : Config) (L : LayoutSpec) (q : Request) :
    decodeCommon c L q = if q.rem < 1 then .error (.fail .truncHdr) else decodeTyped c L (typeByte q) q := by
  unfold decodeCommon
  split
  · rfl
  · rw [memRead_inside (by omega)]
    rfl

/-- The layout decoder of a layout's code. -/
theorem decodeByCode_layoutCode (s : State) (lay : Layout) :
    decodeByCode s (layoutCode lay) = decodeCommon s.config (s.config.spec lay) s.port := by
  cases lay <;> rfl

/-- SEL on a supported version. -/
theorem selectLayout_supported {s : State} {v : Version} {lay : Layout} (h : Supports s v lay) :
    selectLayout s v = .ok (layoutCode lay) := by
  unfold selectLayout
  rw [h.1, h.2]
  rfl

/-- DECODE on a supported version is DecodeCommon of its layout. -/
theorem exec_decode_supported {s : State} {v : Version} {lay : Layout} (h : Supports s v lay) :
    exec (.decode v) s = s.finish (decodeCommon s.config (s.config.spec lay) s.port) := by
  show s.finish _ = _
  rw [selectLayout_supported h]
  exact congrArg _ (decodeByCode_layoutCode s lay)

end Sys2Proof.Machine
end

