-- ==== Sys2Proof/Laws/Exec.lean ====
section
/-! SUPPORT. What one instruction can do: its ways to end, the layout decoder behind a decoder-word form, and the parts of a
decoder word. -/

namespace Sys2Proof.Machine

/-- The layout code of a decoder word (R77). -/
theorem decoderWord_code (code : BitVec 2) (t : Byte) : (decoderWord code t).extractLsb' 8 2 = code := by
  revert code t
  decide +kernel

/-- The type byte of a decoder word (R77). -/
theorem decoderWord_byte (code : BitVec 2) (t : Byte) : (decoderWord code t).extractLsb' 0 8 = t := by
  revert code t
  decide +kernel

theorem decoderWord_inj {a b : BitVec 2} {x y : Byte} (h : decoderWord a x = decoderWord b y) : a = b ∧ x = y := by
  constructor
  · rw [← decoderWord_code a x, h, decoderWord_code]
  · rw [← decoderWord_byte a x, h, decoderWord_byte]

/-- An instruction ends its request in the way `ending` says, or it is a first TBL.INIT. -/
theorem exec_ending_cases (i : Instr) (s : State) :
    exec i s = s.finish (ending s i) ∨
      ∃ d, i = .tblInit d ∧ s.tableReady = false ∧ exec i s = .next (s.setTable (Table.build d)) := by
  by_cases h : ∃ d, i = .tblInit d
  · obtain ⟨d, rfl⟩ := h
    cases hr : s.tableReady
    · exact .inr ⟨d, rfl, rfl, exec_tblInit_first d s hr⟩
    · exact .inl (exec_eq_finish _ _ (.inr hr))
  · exact .inl (exec_eq_finish _ _ (.inl fun d hd => h ⟨d, hd⟩))

/-- Everything an instruction can do: give a response, record a fault, or build the table. -/
theorem exec_cases {i : Instr} {s t : State} (h : exec i s = .next t) :
    (∃ r, t = s.respond r) ∨ (∃ f, t = s.raiseFault f) ∨
      ∃ d, i = .tblInit d ∧ s.tableReady = false ∧ t = s.setTable (Table.build d) := by
  rcases exec_ending_cases i s with h' | ⟨d, rfl, hr, h'⟩
  · rw [h'] at h
    rcases State.finish_cases h with ⟨r, -, rfl⟩ | ⟨f, -, rfl⟩
    · exact .inl ⟨r, rfl⟩
    · exact .inr (.inl ⟨f, rfl⟩)
  · rw [h', Host.Outcome.next.injEq] at h
    exact .inr (.inr ⟨d, rfl, hr, h.symm⟩)

/-- The form whose word is {code of a layout, `t`} runs that layout's decoder on `t`. -/
theorem exec_of_word {lay : Layout} {t : Byte} {i : Instr}
    (h : encode i = .decoder (decoderWord (layoutCode lay) t)) (s : State) : exec i s = decodeForm lay t s := by
  cases i <;> simp only [encode, PortWord.decoder.injEq, reduceCtorEq] at h <;> obtain ⟨h1, rfl⟩ := decoderWord_inj h <;>
    cases lay <;> first | rfl | exact absurd h1 (by decide)

/-- A form is the layout decoder of DecodeCommon on the type byte of its word. -/
theorem decodeForm_eq (lay : Layout) (t : Byte) (s : State) :
    decodeForm lay t s = s.finish (if s.port.rem < 1 then .error (.fail .truncHdr)
      else decodeTyped s.config (s.config.spec lay) t s.port) := rfl

end Sys2Proof.Machine
end

