-- ==== Sys2Proof/Laws/PerInstr.lean ====
section
/-! SUPPORT. The per-instruction family: each instruction's word carries the fixed bits of its own opcode-table row
(30_encoding.md R77, R78); a port command, which has no bits (R79), stands for itself. -/

namespace Sys2Proof.Laws.RowFit

/-- A decoder word has these fixed bits. -/
def FixedBits (w : PortWord) (mask pattern : BitVec 10) : Prop :=
  ∃ x, w = .decoder x ∧ x &&& mask = pattern

/-- A codec control word has these two leading bits. -/
def CodecBits (w : PortWord) (pattern : BitVec 6) : Prop := ∃ c, w = .codec c ∧ c &&& 0x30 = pattern

/-- The encoding of an instruction carries its row's fixed bits. -/
def Statement : Instr → Prop
  | .decLleX m f oo ss r => FixedBits (encode (.decLleX m f oo ss r)) 0x320 0x020
  | .decLleI m oo ss r => FixedBits (encode (.decLleI m oo ss r)) 0x360 0x040
  | .illLleAmbig m oo ss r => FixedBits (encode (.illLleAmbig m oo ss r)) 0x360 0x000
  | .decLbeX m f oo ss r => FixedBits (encode (.decLbeX m f oo ss r)) 0x320 0x120
  | .decLbeI m oo ss r => FixedBits (encode (.decLbeI m oo ss r)) 0x360 0x140
  | .illLbeAmbig m oo ss r => FixedBits (encode (.illLbeAmbig m oo ss r)) 0x360 0x100
  | .decModX pp f ss oo => FixedBits (encode (.decModX pp f ss oo)) 0x301 0x201
  | .decModI pp ss oo => FixedBits (encode (.decModI pp ss oo)) 0x321 0x220
  | .illModAmbig pp ss oo => FixedBits (encode (.illModAmbig pp ss oo)) 0x321 0x200
  | .rsvLayout3 x => FixedBits (encode (.rsvLayout3 x)) 0x300 0x300
  | .fwRdLe n => CodecBits (encode (.fwRdLe n)) 0x00
  | .fwRdBe n => CodecBits (encode (.fwRdBe n)) 0x10
  | .fwWrLe n => CodecBits (encode (.fwWrLe n)) 0x20
  | .fwWrBe n => CodecBits (encode (.fwWrBe n)) 0x30
  | .sel v => encode (.sel v) = .sel v
  | .tblInit d => encode (.tblInit d) = .tblInit d
  | .decode v => encode (.decode v) = .decode v

theorem legacyWord_bits (code : BitVec 2) (m f d : Bool) (oo ss : BitVec 2) (r : Bool) :
    decoderWord code (legacyByte m f d oo ss r) &&& 0x360 =
      decoderWord code (legacyByte false f d 0 0 false) := by
  revert code m f d oo ss r
  decide +kernel

theorem legacyWord_bits_explicit (code : BitVec 2) (m f : Bool) (oo ss : BitVec 2) (r : Bool) :
    decoderWord code (legacyByte m f true oo ss r) &&& 0x320 =
      decoderWord code (legacyByte false false true 0 0 false) := by
  revert code m f oo ss r
  decide +kernel

theorem modernWord_bits (pp : BitVec 2) (f : Bool) (ss oo : BitVec 2) (d : Bool) :
    decoderWord 0b10 (modernByte pp f ss oo d) &&& 0x321 = decoderWord 0b10 (modernByte 0 f 0 0 d) := by
  revert pp f ss oo d
  decide +kernel

theorem modernWord_bits_explicit (pp : BitVec 2) (f : Bool) (ss oo : BitVec 2) :
    decoderWord 0b10 (modernByte pp f ss oo true) &&& 0x301 = decoderWord 0b10 (modernByte 0 false 0 0 true) := by
  revert pp f ss oo
  decide +kernel

theorem reservedWord_bits (x : BitVec 8) : decoderWord 0b11 x &&& 0x300 = 0x300 := by
  revert x
  decide +kernel

theorem codecWord_bits (dir order : Bool) (n : BitVec 4) :
    codecWord dir order n &&& 0x30 = codecWord dir order 0 := by
  revert dir order n
  decide +kernel

theorem decLleX (m f : Bool) (oo ss : BitVec 2) (r : Bool) : Statement (.decLleX m f oo ss r) :=
  ⟨_, rfl, legacyWord_bits_explicit 0b00 m f oo ss r⟩

theorem decLleI (m : Bool) (oo ss : BitVec 2) (r : Bool) : Statement (.decLleI m oo ss r) :=
  ⟨_, rfl, legacyWord_bits 0b00 m true false oo ss r⟩

theorem illLleAmbig (m : Bool) (oo ss : BitVec 2) (r : Bool) : Statement (.illLleAmbig m oo ss r) :=
  ⟨_, rfl, legacyWord_bits 0b00 m false false oo ss r⟩

theorem decLbeX (m f : Bool) (oo ss : BitVec 2) (r : Bool) : Statement (.decLbeX m f oo ss r) :=
  ⟨_, rfl, legacyWord_bits_explicit 0b01 m f oo ss r⟩

theorem decLbeI (m : Bool) (oo ss : BitVec 2) (r : Bool) : Statement (.decLbeI m oo ss r) :=
  ⟨_, rfl, legacyWord_bits 0b01 m true false oo ss r⟩

theorem illLbeAmbig (m : Bool) (oo ss : BitVec 2) (r : Bool) : Statement (.illLbeAmbig m oo ss r) :=
  ⟨_, rfl, legacyWord_bits 0b01 m false false oo ss r⟩

theorem decModX (pp : BitVec 2) (f : Bool) (ss oo : BitVec 2) : Statement (.decModX pp f ss oo) :=
  ⟨_, rfl, modernWord_bits_explicit pp f ss oo⟩

theorem decModI (pp ss oo : BitVec 2) : Statement (.decModI pp ss oo) :=
  ⟨_, rfl, modernWord_bits pp true ss oo false⟩

theorem illModAmbig (pp ss oo : BitVec 2) : Statement (.illModAmbig pp ss oo) :=
  ⟨_, rfl, modernWord_bits pp false ss oo false⟩

theorem rsvLayout3 (x : BitVec 8) : Statement (.rsvLayout3 x) := ⟨_, rfl, reservedWord_bits x⟩

theorem fwRdLe (n : BitVec 4) : Statement (.fwRdLe n) := ⟨_, rfl, codecWord_bits false false n⟩

theorem fwRdBe (n : BitVec 4) : Statement (.fwRdBe n) := ⟨_, rfl, codecWord_bits false true n⟩

theorem fwWrLe (n : BitVec 4) : Statement (.fwWrLe n) := ⟨_, rfl, codecWord_bits true false n⟩

theorem fwWrBe (n : BitVec 4) : Statement (.fwWrBe n) := ⟨_, rfl, codecWord_bits true true n⟩

theorem sel (v : Version) : Statement (.sel v) := rfl

theorem tblInit (d : List (Version × Layout)) : Statement (.tblInit d) := rfl

theorem decode (v : Version) : Statement (.decode v) := rfl

end Sys2Proof.Laws.RowFit
end

