-- ==== Sys2Proof/Tests/Slice0.lean ====
section
/-! SUPPORT. Tests: ill-formed terms, the words of the opcode map written out bit by bit, one-step tests whose results are those
of 95_test_vectors.md (each names its row there), and for every statement with hypotheses a witness that meets them. -/

namespace Sys2Proof.Tests

open Sys2Proof.Machine

/-! ### Helpers -/

/-- The bytes of a list of numbers. -/
def bytes (ns : List Nat) : List Byte := ns.map (BitVec.ofNat 8)

/-- After `INIT v1:LLE, v2:LBE, v3:MOD`, with tokens 1, 2 and 3 (row S03). -/
def started : State := State.reset.setTable (Table.build [(1, .lle), (2, .lbe), (3, .mod)])

/-- A state with a request on the port. -/
def State.ask (s : State) (k : Command) (rem : Nat) (bs : List Nat) : State :=
  { s with port := { Request.idle with command := some k, rem := rem, buf := Memory.ofBytes (bytes bs) } }

/-- A state with a codec request on the port. -/
def State.codec (s : State) (c : BitVec 6) (bs : List Nat) (v : Nat) : State :=
  { s with port := { Request.idle with command := some (.codec c), codecBytes := Memory.ofBytes (bytes bs),
                                       codecValue := v } }

/-- A configuration with other policies. -/
def State.policies (s : State) (marker reserved : Policy) : State :=
  { s with config := { s.config with markerPolicy := marker, reservedPolicy := reserved } }

/-- The next state, if there is one. -/
def nextOf : Host.Outcome State Fault Refusal → Option State
  | .next t => some t
  | .fault _ => none
  | .refused _ => none

/-- What the next state's response port holds. -/
def responseOf (o : Host.Outcome State Fault Refusal) : Option Response := (nextOf o).bind State.response

/-- What the next state has recorded. -/
def faultsOf (o : Host.Outcome State Fault Refusal) : Option (List ModelFault) := (nextOf o).map State.faults

/-- An accepted frame, as 95_test_vectors.md writes it. -/
def okFrame (sid off dl : Nat) (fin : Bool) (consumed : Nat) : Option Response :=
  some (.ok { streamId := BitVec.ofNat 64 sid, dataOffset := BitVec.ofNat 64 off, dataLength := dl, fin := fin,
              readOffset := 0, sourceReference := .null } consumed)

/-- The header of W1 (row L01). -/
def w1 : List Nat := [0xFC, 0x10, 2, 0, 0, 1, 2, 3, 4, 5, 6, 7, 8, 0xC4, 1]

/-- The header of row B01. -/
def b1 : List Nat := [0xFC, 0, 0, 2, 0x10, 8, 7, 6, 5, 4, 3, 2, 1, 1, 0xC4]

/-! ### WellFormed: an ill-formed term for each check -/

theorem test_wf_default : defaultConfig.wf = true := by decide
theorem test_wf_sid_outside_byte : { layoutMod with sidLo := 7, markerMask := 0, markerVal := 0 : LayoutSpec }.wf = false := by
  decide
theorem test_wf_off_outside_byte : { layoutMod with offLo := 7, markerMask := 0, markerVal := 0 : LayoutSpec }.wf = false := by
  decide
theorem test_wf_overlap_fin_dlen : { layoutLle with finBit := 5 : LayoutSpec }.wf = false := by decide
theorem test_wf_overlap_marker : { layoutLle with markerMask := 0xC0 : LayoutSpec }.wf = false := by decide
theorem test_wf_overlap_reserved : { layoutLle with reservedMask := 0x03 : LayoutSpec }.wf = false := by decide
theorem test_wf_sid_table_short : { layoutLle with sidTab := [1, 2, 4] : LayoutSpec }.wf = false := by decide
theorem test_wf_off_table_long : { layoutLle with offTab := [0, 2, 4, 8, 8] : LayoutSpec }.wf = false := by decide
theorem test_wf_sid_width_nine : { layoutLle with sidTab := [1, 2, 4, 9] : LayoutSpec }.wf = false := by decide
theorem test_wf_off_width_nine : { layoutLle with offTab := [0, 2, 4, 9] : LayoutSpec }.wf = false := by decide
theorem test_wf_marker_value : { layoutLle with markerVal := 0x81 : LayoutSpec }.wf = false := by decide
theorem test_wf_config_lle : { defaultConfig with lle := { layoutLle with sidTab := [] } : Config }.wf = false := by decide
theorem test_wf_config_lbe : { defaultConfig with lbe := { layoutLbe with sidTab := [] } : Config }.wf = false := by decide
theorem test_wf_config_mod : { defaultConfig with mod := { layoutMod with sidTab := [] } : Config }.wf = false := by decide
theorem test_wf_sel_token : Instr.wf defaultConfig (.sel (2 ^ 32)) = false := by decide
theorem test_wf_decode_token : Instr.wf defaultConfig (.decode (2 ^ 32)) = false := by decide
theorem test_wf_init_token : Instr.wf defaultConfig (.tblInit [(2 ^ 32, .lle)]) = false := by decide
theorem test_wf_init_twice : Instr.wf defaultConfig (.tblInit [(1, .lle), (1, .mod)]) = false := by decide
theorem test_wf_good : Instr.wf defaultConfig (.tblInit [(1, .lle), (2, .lbe)]) = true ∧
    Instr.wf defaultConfig (.sel 1) = true ∧ Instr.wf defaultConfig (.decode 7) = true := by decide

/-! ### Decoding: the patterns of R77 and R78, bit by bit -/

theorem test_decode_lle_x : decode (.decoder 0b0011111100#10) = .ok (.decLleX true true 3 2 false) := by rfl
theorem test_decode_lle_i : decode (.decoder 0b0011001010#10) = .ok (.decLleI true 1 1 false) := by rfl
theorem test_decode_lle_ambig : decode (.decoder 0b0010010001#10) = .ok (.illLleAmbig true 2 0 true) := by rfl
theorem test_decode_lbe_x : decode (.decoder 0b0100100110#10) = .ok (.decLbeX false false 0 3 false) := by rfl
theorem test_decode_lbe_i : decode (.decoder 0b0111011000#10) = .ok (.decLbeI true 3 0 false) := by rfl
theorem test_decode_lbe_ambig : decode (.decoder 0b0100000011#10) = .ok (.illLbeAmbig false 0 1 true) := by rfl
theorem test_decode_mod_x : decode (.decoder 0b1011010011#10) = .ok (.decModX 3 false 2 1) := by rfl
theorem test_decode_mod_i : decode (.decoder 0b1001101100#10) = .ok (.decModI 1 1 2) := by rfl
theorem test_decode_mod_ambig : decode (.decoder 0b1010011110#10) = .ok (.illModAmbig 2 3 3) := by rfl
theorem test_decode_reserved : decode (.decoder 0b1110100101#10) = .ok (.rsvLayout3 0xA5) := by rfl
theorem test_decode_rd_le : decode (.codec 0b000010#6) = .ok (.fwRdLe 2) := by rfl
theorem test_decode_rd_be : decode (.codec 0b010100#6) = .ok (.fwRdBe 4) := by rfl
theorem test_decode_wr_le : decode (.codec 0b101000#6) = .ok (.fwWrLe 8) := by rfl
theorem test_decode_wr_be : decode (.codec 0b111111#6) = .ok (.fwWrBe 15) := by rfl
theorem test_decode_ports : decode (.sel 7) = .ok (.sel 7) ∧ decode (.decode 7) = .ok (.decode 7) ∧
    decode (.tblInit [(7, .mod)]) = .ok (.tblInit [(7, .mod)]) := ⟨rfl, rfl, rfl⟩
theorem test_table_word_decoder : decodeTableWord 10 0x0FC = some (.decLleX true true 3 2 false) := by decide
theorem test_table_word_codec : decodeTableWord 6 0x34 = some (.fwWrBe 4) := by decide
theorem test_bits_above_word : decodeTableWord 16 0x400 = none ∧ decodeTableWord 8 0x40 = none ∧
    decodeTableWord 0 0 = none := by decide

/-! ### The widths of the type byte (30_encoding.md R81, R82) -/

/-- R81, row D = 1, SS = 2, OO = 3: the header of `0xFC` is 15 bytes; R82, row D = 0, SS = 3, OO = 3: that of `0xDE` is 13. -/
theorem test_header_lengths : headerLength 4 8 (dlenFlag layoutLle 0xFC) = 15 ∧ WidthsAre layoutLle 0xFC 4 8 ∧
    headerLength 4 8 (dlenFlag layoutMod 0xDE) = 13 ∧ WidthsAre layoutMod 0xDE 4 8 := by
  refine ⟨by decide, ⟨by decide, by decide⟩, by decide, ⟨by decide, by decide⟩⟩

/-! ### One step, Legacy-LE -/

/-- Rows L01 and L02. -/
theorem test_lle_x : responseOf (step (State.ask started (.header 0) 467 w1)) =
    okFrame 0x210 0x0807060504030201 452 true 467 := by decide
/-- Rows L03 and L05. -/
theorem test_lle_x_short : responseOf (step (State.ask started (.header 0) 466 w1)) = some (.fail .truncPayload) ∧
    responseOf (step (State.ask started (.header 0) 14 w1)) = some (.fail .truncHdr) := by decide
/-- Row L11. -/
theorem test_lle_i : responseOf (step (State.ask started (.header 0) 10 [0xC0, 5])) = okFrame 5 0 8 true 10 := by
  decide
/-- Rows L07 and L08. -/
theorem test_lle_ambig : responseOf (step (State.ask started (.header 0) 2 [0x80, 5])) = some (.fail .ambigLen) ∧
    responseOf (step (State.ask started (.header 0) 1 [0x80, 5])) = some (.fail .truncHdr) := by decide
/-- Row L24: the inferred length passes 65535. -/
theorem test_lle_i_long : responseOf (step (State.ask started (.header 0) 70000 [0xC0, 1])) =
    okFrame 1 0 69998 true 70000 := by decide
/-- Rows L25 and L26. -/
theorem test_marker : faultsOf (step (State.ask started (.header 0) 512 (0x7C :: w1.tail))) = some [.notStream 0x7C] ∧
    responseOf (step (State.policies (State.ask started (.header 0) 512 (0x7C :: w1.tail)) .ignore .fault)) =
      okFrame 0x210 0x0807060504030201 452 true 467 := by decide
/-- Rows L27 and L28. -/
theorem test_reserved : faultsOf (step (State.ask started (.header 0) 512 (0xFD :: w1.tail))) =
      some [.reservedBit 0xFD] ∧
    responseOf (step (State.policies (State.ask started (.header 0) 512 (0xFD :: w1.tail)) .fault .ignore)) =
      okFrame 0x210 0x0807060504030201 452 true 467 := by decide

/-! ### One step, Legacy-BE -/

/-- Row B01. -/
theorem test_lbe_x : responseOf (step (State.ask started (.header 1) 512 b1)) =
    okFrame 0x210 0x0807060504030201 452 true 467 := by decide
/-- Row B02: the same bytes read most-significant first claim 50177 bytes. -/
theorem test_lbe_x_long : responseOf (step (State.ask started (.header 1) 512 w1)) = some (.fail .truncPayload) := by
  decide
/-- Row B05. -/
theorem test_lbe_i : responseOf (step (State.ask started (.header 1) 2 [0xC0, 5])) = okFrame 5 0 0 true 2 := by
  decide
/-- Rows V04 and V05. -/
theorem test_lbe_ambig : responseOf (step (State.ask started (.header 1) 2 [0x80, 5])) = some (.fail .ambigLen) ∧
    responseOf (step (State.ask started (.header 1) 1 [0x80, 5])) = some (.fail .truncHdr) := by decide

/-! ### One step, Modern -/

/-- Row M04. -/
theorem test_mod_x : responseOf (step (State.ask started (.header 2) 10 [0xF3, 0x12, 0x34, 0x56, 0x78, 0, 3])) =
    okFrame 0x1234 0x5678 3 true 10 := by decide
/-- Rows M01 and M12. -/
theorem test_mod_i : responseOf (step (State.ask started (.header 2) 200 [0xE0])) = okFrame 0 0 199 true 200 ∧
    responseOf (step (State.ask started (.header 2) 8 [0xF8, 0xA1, 0xA2, 0xA3, 0xA4])) =
      okFrame 0xA1A2A3A4 0 3 true 8 := by decide
/-- Rows M02 and M16. -/
theorem test_mod_ambig : responseOf (step (State.ask started (.header 2) 200 [0xC0])) = some (.fail .ambigLen) ∧
    responseOf (step (State.ask started (.header 2) 4 [0xDE])) = some (.fail .truncHdr) := by decide
/-- Rows M18 and M19. -/
theorem test_mod_marker : faultsOf (step (State.ask started (.header 2) 10 [0xA0])) = some [.notStream 0xA0] ∧
    responseOf (step (State.policies (State.ask started (.header 2) 10 [0xA0]) .ignore .fault)) =
      okFrame 0 0 9 true 10 := by decide

/-! ### One step, the reserved code and the codec -/

/-- R76 and R204, item 3: before `rem = 0`. -/
theorem test_reserved_layout : faultsOf (step (State.ask started (.header 3) 0 [])) = some [.badLayout] := by
  decide
/-- Rows `FW.RD.LE 2, [C4 01]` and `FW.RD.LE 9`. -/
theorem test_rd_le : responseOf (step (State.codec started 0b000010 [0xC4, 1] 0)) = some (.value 0x01C4) ∧
    faultsOf (step (State.codec started 0b001001 [] 0)) = some [.badWidth 9] := by decide
/-- Rows `FW.RD.BE 4, [10 02 00 00]` and `FW.RD.BE 8, [FF ...]`. -/
theorem test_rd_be : responseOf (step (State.codec started 0b010100 [0x10, 2, 0, 0] 0)) = some (.value 0x10020000) ∧
    responseOf (step (State.codec started 0b011000 [255, 255, 255, 255, 255, 255, 255, 255] 0)) =
      some (.value 0xFFFFFFFFFFFFFFFF) := by decide
/-- Rows `FW.WR.LE 3, 0x123456` and `FW.WR.LE 2, 0x10000`. -/
theorem test_wr_le : responseOf (step (State.codec started 0b100011 [] 0x123456)) = some (.bytes [0x56, 0x34, 0x12]) ∧
    faultsOf (step (State.codec started 0b100010 [] 0x10000)) = some [.encRange 0x10000 2] := by decide
/-- Rows `FW.WR.BE 4, 0x210` and `FW.WR.BE 0, 1`. -/
theorem test_wr_be : responseOf (step (State.codec started 0b110100 [] 0x210)) = some (.bytes [0, 0, 2, 0x10]) ∧
    faultsOf (step (State.codec started 0b110000 [] 1)) = some [.encRange 1 0] := by decide

/-! ### One step, the dispatch table -/

/-- Rows S01 and S02. -/
theorem test_before_init : faultsOf (step (State.ask State.reset (.sel 1) 0 [])) = some [.notInitialised] ∧
    faultsOf (step (State.ask State.reset (.decode 1) 0 [])) = some [.notInitialised] := by decide
/-- Row S03: what INIT builds. -/
theorem test_init : (nextOf (step (State.ask State.reset (.tblInit [(1, .lle), (2, .lbe), (3, .mod)]) 0 []))).map
    (fun t => (t.tableReady, t.dt)) = some (true, [(1, 0), (2, 1), (3, 2)]) := by decide
/-- Row S06. -/
theorem test_init_locked : (nextOf (step (State.ask started (.tblInit [(4, .mod)]) 0 []))).map
    (fun t => (t.faults, t.dt)) = some ([.tableLocked], [(1, 0), (2, 1), (3, 2)]) := by decide
/-- Rows S03 and S04. -/
theorem test_sel : responseOf (step (State.ask started (.sel 2) 0 [])) = some (.layout 1) ∧
    faultsOf (step (State.ask started (.sel 9) 0 [])) = some [.unsupportedVersion 9] := by decide
/-- Rows S09 and S10. -/
theorem test_decode_request : responseOf (step (State.ask started (.decode 1) 512 w1)) =
      okFrame 0x210 0x0807060504030201 452 true 467 ∧
    responseOf (step (State.ask started (.decode 2) 512 w1)) = some (.fail .truncPayload) := by decide
/-- Row S05. -/
theorem test_decode_unsupported : faultsOf (step (State.ask started (.decode 9) 0 [])) =
    some [.unsupportedVersion 9] := by decide

/-! ### The step itself -/

/-- R214, and the request leaves the port. -/
theorem test_idle : nextOf (step State.reset) = some State.reset ∧
    (nextOf (step (State.ask started (.sel 2) 0 []))).map (fun t => t.port.command) = some none := by decide
/-- A step without a command brings the waiting request onto the port and serves nothing (log entry 4); one that ends the last
request leaves its operands on the port (log entry 22). -/
theorem test_retire : nextOf (step { started with waiting := [(State.ask started (.sel 2) 7 []).port] }) =
      some (State.ask started (.sel 2) 7 []) ∧
    (nextOf (step (State.ask started (.decode 3) 200 [0xE0]))).map (fun t => (t.port.rem, t.port.buf)) =
      some (200, Memory.ofBytes (bytes [0xE0])) := by decide
/-- A placed table word is what the next step runs. -/
theorem test_placed_word : fetchWord (State.reset.withFetchWord 10 0x0FC).port = .word (.decoder 0x0FC) ∧
    fetchWord (State.reset.withFetchWord 6 0x34).port = .word (.codec 0x34) := by decide
/-- R230 on a running machine: the faults stay recorded. -/
theorem test_power_on : ({ started with faults := [.tableLocked] } : State).powerOn [(1, 3)] =
    { State.resetWith defaultConfig [(1, 3)] with faults := [.tableLocked] } := by decide

/-! ### Witnesses: states and operands that meet each statement's hypotheses, clause by clause -/

theorem inv_of_checks {s : State} (h1 : s.config.wf = true) (h2 : Table.wf s.dt = true)
    (h3 : (s.dt.all fun p => s.config.tokenFits p.1) = true) (h4 : Request.wf s.config s.port = true)
    (h5 : s.waiting = []) (h6 : s.response = none) : s.Inv :=
  ⟨h1, fun _ => h2, fun _ => h3, h4, by rw [h5]; rfl, by rw [h6]⟩

theorem witness_ResetMeetsInvariant : defaultConfig.wf = true := by decide

theorem witness_StepKeepsInvariant : (State.ask started (.decode 1) 467 w1).Inv ∧
    ∃ t, step (State.ask started (.decode 1) 467 w1) = .next t :=
  ⟨inv_of_checks (by decide) (by decide) (by decide) (by decide) rfl rfl, _, rfl⟩

theorem witness_StepNeverStops : (State.ask started (.decode 9) 0 []).config.wf = true := by decide

theorem witness_TableNeverChangesOnceReady :
    (started.tableReady = true ∧ ∃ t, Sys2Proof.core.run 2 (State.ask started (.tblInit [(4, .mod)]) 0 []) = .next t) ∧
    (∀ d, Instr.sel 1 ≠ .tblInit d) ∧ ∃ t, exec (.sel 1) State.reset = .next t :=
  ⟨⟨rfl, _, rfl⟩, by simp, _, rfl⟩

theorem witness_RecordedFaultsNeverCleared :
    ∃ t, Sys2Proof.core.run 1 (State.ask { started with faults := [.badLayout] } (.sel 9) 0 []) = .next t := ⟨_, rfl⟩

theorem witness_OutcomeIgnoresHistory : ∃ t, exec (.decode 1) (State.ask started (.decode 1) 467 w1) = .next t :=
  ⟨_, rfl⟩

theorem witness_RequestOrderDoesNotMatter : ∃ (a b : Request) (t₁ t₂ u₁ u₂ : State), started.tableReady = true ∧
    a.command ≠ none ∧ b.command ≠ none ∧
    step { started with port := a, waiting := [b] } = .next t₁ ∧ step t₁ = .next t₂ ∧
    step { started with port := b, waiting := [a] } = .next u₁ ∧ step u₁ = .next u₂ :=
  ⟨(State.ask started (.decode 1) 467 w1).port, (State.ask started (.sel 9) 0 []).port, _, _, _, _, rfl, by decide,
    by decide, rfl, rfl, rfl, rfl⟩

theorem witness_StepRunsDecodedInstruction :
    fetchWord (State.ask started (.header 0) 1 [0xFC]).port = .word (.decoder 0x0FC) ∧
    decode (.decoder 0x0FC) = .ok (.decLleX true true 3 2 false) ∧
    (State.ask started (.header 0) 1 [0xFC]).port.command = some (.header 0) ∧
    1 ≤ (State.ask started (.header 0) 1 [0xFC]).port.rem ∧
    (State.ask started (.header 3) 0 []).port.command = some (.header 0b11) ∧
    (State.ask started (.header 3) 0 []).port.rem = 0 ∧
    (State.codec started 0b110100 [] 0x210).port.command = some (.codec 0b110100) ∧
    (State.ask started (.sel 2) 0 []).port.command = some (.sel 2) ∧
    (State.ask State.reset (.tblInit [(1, .lle)]) 0 []).port.command = some (.tblInit [(1, .lle)]) ∧
    (State.ask started (.decode 2) 0 []).port.command = some (.decode 2) ∧
    started.port.command = none ∧
    ({ started with waiting := [Request.idle] } : State).waiting = [Request.idle] ∧ started.waiting = [] :=
  ⟨by decide, by rfl, rfl, by decide, rfl, rfl, rfl, rfl, rfl, rfl, rfl, rfl, rfl⟩

theorem witness_IdleStepChangesNothing : State.reset.port.command = none ∧ State.reset.waiting = [] := ⟨rfl, rfl⟩

theorem witness_StepWithoutTypeByteFails :
    (State.ask started (.header 2) 0 []).port.command = some (.header (layoutCode .mod)) ∧
    (State.ask started (.header 2) 0 []).port.rem = 0 := ⟨rfl, rfl⟩

theorem witness_HeaderCommandIsDecodeCommon :
    (State.ask started (.header 1) 512 b1).port.command = some (.header (layoutCode .lbe)) := rfl

theorem witness_EncodeOfDecode : decode (.decoder 0b1011010011#10) = .ok (.decModX 3 false 2 1) := by rfl

theorem witness_HeaderLengthRange : WidthsAre layoutLbe 0xBE 8 8 ∧ WidthsAre layoutMod 0xDF 4 8 :=
  ⟨⟨by decide, by decide⟩, by decide, by decide⟩

theorem witness_FrameOfRequests : (∀ d, Instr.decode 1 ≠ .tblInit d) ∧
    ∃ t, exec (.decode 1) (State.ask started (.decode 1) 467 w1) = .next t := ⟨by simp, _, rfl⟩

theorem witness_FrameOfTblInit : State.reset.tableReady = false ∧ (∃ t, exec (.tblInit [(1, .lle)]) State.reset = .next t) ∧
    started.tableReady = true ∧ ∃ t, exec (.tblInit [(1, .lle)]) started = .next t := ⟨rfl, ⟨_, rfl⟩, rfl, _, rfl⟩

theorem witness_SelReturnsTheEntry : State.reset.tableReady = false ∧
    (started.tableReady = true ∧ Table.lookup started.dt 9 = none) ∧
    (started.tableReady = true ∧ Table.lookup started.dt 3 = some 2) := by decide

theorem witness_TblInitBuildsDispatch :
    (State.reset.tableReady = false ∧ State.reset.config.dispatchWf [(1, .lle), (2, .lbe), (3, .mod)] = true) ∧
    started.tableReady = true := by decide

theorem witness_LookupsBeforeInitFault : (State.resetWith defaultConfig [(1, 0)]).tableReady = false := rfl

theorem witness_UnsupportedVersionFaults : started.tableReady = true ∧ Table.lookup started.dt 9 = none := by decide

theorem witness_DecodeExpandsToForm : started.tableReady = true ∧ Table.lookup started.dt 1 = some 0 ∧
    1 ≤ (State.ask started (.decode 1) 1 [0xC0]).port.rem := by decide

theorem witness_ReservedLayoutFaults : ({ started with dt := [(5, 3)] } : State).tableReady = true ∧
    Table.lookup ({ started with dt := [(5, 3)] } : State).dt 5 = some 0b11 := by decide

theorem witness_DecodeOutcomePriority : State.reset.config.wf = true ∧ State.reset.tableReady = false ∧
    started.config.wf = true ∧ Table.lookup started.dt 9 = none ∧
    Table.lookup ({ started with dt := [(5, 3)] } : State).dt 5 = some 0b11 ∧ Supports started 1 .lle :=
  ⟨by decide, rfl, by decide, by decide, by decide, rfl, by decide⟩

theorem supports_w1 (rem : Nat) : Supports (State.ask started (.decode 1) rem w1) 1 .lle := ⟨rfl, rfl⟩

theorem typeByte_w1 (rem : Nat) : typeByte (State.ask started (.decode 1) rem w1).port = 0xFC := by
  show Memory.read (Memory.ofBytes (bytes w1)) 0 = 0xFC
  decide

theorem widths_w1 (rem : Nat) : WidthsAre layoutLle (typeByte (State.ask started (.decode 1) rem w1).port) 4 8 := by
  rw [typeByte_w1]
  exact ⟨by decide, by decide⟩

theorem typeByteOk_w1 (rem : Nat) :
    TypeByteOk defaultConfig layoutLle (typeByte (State.ask started (.decode 1) rem w1).port) := by
  rw [typeByte_w1]
  exact ⟨.inr (by decide), .inr (by decide)⟩

theorem dlen_w1 (rem : Nat) : dlenFlag layoutLle (typeByte (State.ask started (.decode 1) rem w1).port) = true := by
  rw [typeByte_w1]
  decide

theorem length_w1 (rem : Nat) : wireValue .le (State.ask started (.decode 1) rem w1).port.buf 13 2 = 0x01C4 := by
  rw [← fieldValue_readN]
  show fieldValue .le (Memory.readN (Memory.ofBytes (bytes w1)) 13 2) = 0x01C4
  decide

/-- At the boundary: `rem` is the header and payload exactly. -/
theorem witness_DecodeAcceptsFittingFrame : started.config.wf = true ∧
    Supports (State.ask started (.decode 1) 467 w1) 1 .lle ∧
    WidthsAre layoutLle (typeByte (State.ask started (.decode 1) 467 w1).port) 4 8 ∧
    TypeByteOk defaultConfig layoutLle (typeByte (State.ask started (.decode 1) 467 w1).port) ∧
    dlenFlag layoutLle (typeByte (State.ask started (.decode 1) 467 w1).port) = true ∧
    headerLength 4 8 true ≤ (State.ask started (.decode 1) 467 w1).port.rem ∧
    headerLength 4 8 true + wireLength .le (State.ask started (.decode 1) 467 w1).port 4 8 true ≤
      (State.ask started (.decode 1) 467 w1).port.rem :=
  ⟨by decide, supports_w1 467, widths_w1 467, typeByteOk_w1 467, dlen_w1 467, by decide, by
    have h := length_w1 467
    show 15 + wireValue .le (State.ask started (.decode 1) 467 w1).port.buf 13 2 ≤ 467
    omega⟩

/-- The boundary of W1's frame in both Legacy layouts and of row M04's in the Modern one: `rem` is the frame exactly. -/
theorem witness_ExplicitLength : (legacySidTab[(2 : BitVec 2).toNat]? = some 4 ∧
    legacyOffTab[(3 : BitVec 2).toNat]? = some 8 ∧ started.config.lle = layoutLle ∧ started.config.lbe = layoutLbe ∧
    TypeByteOk defaultConfig layoutLle (legacyByte true true true 3 2 false) ∧
    TypeByteOk defaultConfig layoutLbe (legacyByte true true true 3 2 false) ∧
    3 + 4 + 8 + wireValue .le (State.ask started (.header 0) 467 w1).port.buf (1 + 4 + 8) 2 ≤ 467 ∧
    3 + 4 + 8 + wireValue .be (State.ask started (.header 1) 467 b1).port.buf (1 + 4 + 8) 2 ≤ 467) ∧
    modernSidTab[(2 : BitVec 2).toNat]? = some 2 ∧
    modernOffTab[(1 : BitVec 2).toNat]? = some 2 ∧ started.config.mod = layoutMod ∧
    TypeByteOk defaultConfig layoutMod (modernByte 3 true 2 1 true) ∧
    3 + 2 + 2 + wireValue .be (State.ask started (.header 2) 10 [0xF3, 0x12, 0x34, 0x56, 0x78, 0, 3]).port.buf (1 + 2 + 2) 2
      ≤ 10 := by
  refine ⟨⟨rfl, rfl, rfl, rfl, ⟨.inr rfl, .inr rfl⟩, ⟨.inr rfl, .inr rfl⟩, ?_, ?_⟩, rfl, rfl, rfl,
    ⟨.inr rfl, .inr rfl⟩, ?_⟩
  all_goals rw [← fieldValue_readN]; decide

/-- At the boundary `rem = hdr` (row L10, row M07). -/
theorem witness_InferredLength : (legacySidTab[(0 : BitVec 2).toNat]? = some 1 ∧
    legacyOffTab[(0 : BitVec 2).toNat]? = some 0 ∧ 1 + 1 + 0 ≤ (State.ask started (.header 0) 2 [0xC0, 5]).port.rem ∧
    TypeByteOk defaultConfig layoutLle (legacyByte true true false 0 0 false) ∧
    TypeByteOk defaultConfig layoutLbe (legacyByte true true false 0 0 false)) ∧
    modernSidTab[(0 : BitVec 2).toNat]? = some 0 ∧ modernOffTab[(0 : BitVec 2).toNat]? = some 0 ∧
    1 + 0 + 0 ≤ (State.ask started (.header 2) 1 [0xE0]).port.rem ∧
    TypeByteOk defaultConfig layoutMod (modernByte 3 true 0 0 false) :=
  ⟨⟨rfl, rfl, by decide, ⟨.inr rfl, .inr rfl⟩, .inr rfl, .inr rfl⟩, rfl, rfl, by decide, .inr rfl, .inr rfl⟩

theorem witness_AmbiguousLengthFails : (legacySidTab[(0 : BitVec 2).toNat]? = some 1 ∧
    legacyOffTab[(0 : BitVec 2).toNat]? = some 0 ∧
    started.config.lle = layoutLle ∧ TypeByteOk defaultConfig layoutLle (legacyByte true false false 0 0 false) ∧
    started.config.lbe = layoutLbe ∧ TypeByteOk defaultConfig layoutLbe (legacyByte true false false 0 0 false)) ∧
    modernSidTab[(3 : BitVec 2).toNat]? = some 4 ∧ modernOffTab[(3 : BitVec 2).toNat]? = some 8 ∧
    started.config.mod = layoutMod ∧ TypeByteOk defaultConfig layoutMod (modernByte 3 false 3 3 false) :=
  ⟨⟨rfl, rfl, rfl, ⟨.inr rfl, .inr rfl⟩, rfl, .inr rfl, .inr rfl⟩, rfl, rfl, rfl, .inr rfl, .inr rfl⟩

/-- A field one byte past `rem`: the type byte, the stream id, the offset, the length field (row L05). -/
theorem witness_TruncatedHeaderFails : started.config.wf = true ∧ Supports (State.ask started (.decode 1) 0 []) 1 .lle ∧
    (State.ask started (.decode 1) 0 []).port.rem < 1 ∧
    Supports (State.ask started (.decode 1) 4 w1) 1 .lle ∧
    WidthsAre layoutLle (typeByte (State.ask started (.decode 1) 4 w1).port) 4 8 ∧
    TypeByteOk defaultConfig layoutLle (typeByte (State.ask started (.decode 1) 4 w1).port) ∧
    1 + 4 > (State.ask started (.decode 1) 4 w1).port.rem ∧
    1 + 4 + 8 > (State.ask started (.decode 1) 12 w1).port.rem ∧
    (dlenFlag layoutLle (typeByte (State.ask started (.decode 1) 14 w1).port) = true ∧
      1 + 4 + 8 + 2 > (State.ask started (.decode 1) 14 w1).port.rem) :=
  ⟨by decide, ⟨rfl, rfl⟩, by decide, supports_w1 4, widths_w1 4, typeByteOk_w1 4, by decide, by decide, dlen_w1 14,
    by decide⟩

/-- One byte over (row L03). -/
theorem witness_TruncatedPayloadFails : started.config.wf = true ∧
    Supports (State.ask started (.decode 1) 466 w1) 1 .lle ∧
    WidthsAre layoutLle (typeByte (State.ask started (.decode 1) 466 w1).port) 4 8 ∧
    TypeByteOk defaultConfig layoutLle (typeByte (State.ask started (.decode 1) 466 w1).port) ∧
    dlenFlag layoutLle (typeByte (State.ask started (.decode 1) 466 w1).port) = true ∧
    3 + 4 + 8 ≤ (State.ask started (.decode 1) 466 w1).port.rem ∧
    3 + 4 + 8 + wireValue .le (State.ask started (.decode 1) 466 w1).port.buf (1 + 4 + 8) 2 >
      (State.ask started (.decode 1) 466 w1).port.rem :=
  ⟨by decide, supports_w1 466, widths_w1 466, typeByteOk_w1 466, dlen_w1 466, by decide, by
    have h := length_w1 466
    show 15 + wireValue .le (State.ask started (.decode 1) 466 w1).port.buf 13 2 > 466
    omega⟩

/-- The lengths on both sides of the boundary of `rem = 467`. -/
theorem witness_PayloadBoundaryIsExact : started.config.wf = true ∧
    Supports (State.ask started (.decode 1) 467 w1) 1 .lle ∧
    Memory.wf (State.ask started (.decode 1) 467 w1).port.buf = true ∧
    WidthsAre layoutLle (typeByte (State.ask started (.decode 1) 467 w1).port) 4 8 ∧
    TypeByteOk defaultConfig layoutLle (typeByte (State.ask started (.decode 1) 467 w1).port) ∧
    dlenFlag layoutLle (typeByte (State.ask started (.decode 1) 467 w1).port) = true ∧
    3 + 4 + 8 ≤ (State.ask started (.decode 1) 467 w1).port.rem ∧
    452 ≤ (State.ask started (.decode 1) 467 w1).port.rem - (3 + 4 + 8) ∧
    453 > (State.ask started (.decode 1) 467 w1).port.rem - (3 + 4 + 8) :=
  ⟨by decide, supports_w1 467, by decide, widths_w1 467, typeByteOk_w1 467, dlen_w1 467, by decide, by decide,
    by decide⟩

theorem witness_InferredLengthNeverTruncates : Supports (State.ask started (.decode 1) 2 [0xC0, 5]) 1 .lle ∧
    dlenFlag layoutLle (typeByte (State.ask started (.decode 1) 2 [0xC0, 5]).port) = false ∧
    ∃ t, exec (.decode 1) (State.ask started (.decode 1) 2 [0xC0, 5]) = .next t := ⟨⟨rfl, rfl⟩, rfl, _, rfl⟩

/-- `0x7C` has a wrong marker (row L25), `0xFD` a set reserved bit (row L27). -/
theorem witness_MarkerAndReservedChecks : Supports (State.ask started (.decode 1) 1 [0x7C]) 1 .lle ∧
    1 ≤ (State.ask started (.decode 1) 1 [0x7C]).port.rem ∧
    (defaultConfig.markerPolicy = .fault ∧
      typeByte (State.ask started (.decode 1) 1 [0x7C]).port &&& layoutLle.markerMask ≠ layoutLle.markerVal) ∧
    (typeByte (State.ask started (.decode 1) 1 [0xFD]).port &&& layoutLle.markerMask = layoutLle.markerVal ∧
      defaultConfig.reservedPolicy = .fault ∧
      typeByte (State.ask started (.decode 1) 1 [0xFD]).port &&& layoutLle.reservedMask ≠ 0) ∧
    ∃ t, exec (.decode 1) (State.policies (State.ask started (.decode 1) 1 [0x7D]) .ignore .ignore) = .next t ∧
      (State.policies (State.ask started (.decode 1) 1 [0x7D]) .ignore .ignore).config.markerPolicy = .ignore ∧
      (State.policies (State.ask started (.decode 1) 1 [0x7D]) .ignore .ignore).config.reservedPolicy = .ignore :=
  ⟨⟨rfl, rfl⟩, by decide, by decide, by decide +kernel, _, rfl, rfl, rfl⟩

/-- A frame that DECODE and its own form accept. -/
theorem witness_OkResponseInvariants :
    encode (.decLleX true true 3 2 false) = .decoder (decoderWord (layoutCode .lle) 0xFC) ∧
    Supports (State.ask started (.decode 1) 467 w1) 1 .lle ∧ WidthsAre layoutLle 0xFC 4 8 ∧
    (∃ t, exec (.decLleX true true 3 2 false) (State.ask started (.decode 1) 467 w1) = .next t ∧
      ∃ r n, t.response = some (.ok r n)) ∧
    ∃ t, exec (.decode 1) (State.ask started (.decode 1) 467 w1) = .next t ∧ ∃ r n, t.response = some (.ok r n) :=
  ⟨rfl, supports_w1 467, ⟨by rfl, by rfl⟩, ⟨_, rfl, _, _, rfl⟩, _, rfl, _, _, rfl⟩

/-- Row M01: both widths are 0. -/
theorem witness_ZeroWidthDefaults : Supports (State.ask started (.decode 3) 200 [0xE0]) 3 .mod ∧
    WidthsAre layoutMod (typeByte (State.ask started (.decode 3) 200 [0xE0]).port) 0 0 ∧
    (∃ t, exec (.decode 3) (State.ask started (.decode 3) 200 [0xE0]) = .next t ∧ ∃ r n, t.response = some (.ok r n)) ∧
    State.reset.port.codecValue = 0 := ⟨⟨rfl, rfl⟩, ⟨by rfl, by rfl⟩, ⟨_, rfl, _, _, rfl⟩, rfl⟩

/-- A buffer that differs in the payload. -/
theorem witness_OutcomeReadsOnlyHeader : Supports (State.ask started (.decode 1) 20 [0xC0, 7, 1]) 1 .lle ∧
    WidthsAre layoutLle (typeByte (State.ask started (.decode 1) 20 [0xC0, 7, 1]).port) 1 0 ∧
    (∀ a, a < 20 → a < headerLength 1 0 false → Memory.read (Memory.ofBytes (bytes [0xC0, 7, 2])) a =
      Memory.read (State.ask started (.decode 1) 20 [0xC0, 7, 1]).port.buf a) ∧
    ∃ t, exec (.decode 1) (State.ask started (.decode 1) 20 [0xC0, 7, 1]) = .next t :=
  ⟨⟨rfl, rfl⟩, ⟨by rfl, by rfl⟩, by decide, _, rfl⟩

/-- W1's values: the header is encoded, and a buffer that begins with it meets the second half's premises. -/
theorem witness_FrameRoundTrip : defaultConfig.wf = true ∧ layoutLle.sidTab[2]? = some 4 ∧
    layoutLle.offTab[3]? = some 8 ∧ 0x210 < 256 ^ 4 ∧ 0x0807060504030201 < 256 ^ 8 ∧ 0x01C4 < 65536 ∧
    encodeHeader layoutLle 2 3 true true 0x210 0x0807060504030201 0x01C4 = .ok (bytes w1) ∧
    started.config = defaultConfig ∧ Supports (State.ask started (.decode 1) 467 w1) 1 .lle ∧
    Memory.beginsWith (State.ask started (.decode 1) 467 w1).port.buf (bytes w1) ∧
    (bytes w1).length + 0x01C4 ≤ (State.ask started (.decode 1) 467 w1).port.rem :=
  ⟨by decide, rfl, rfl, by decide, by decide, by decide, by rfl, rfl, supports_w1 467,
    by unfold Memory.beginsWith; decide, by decide⟩

/-- Rows L01 and B01. -/
theorem witness_ByteOrderSymmetry : started.config.wf = true ∧ started.config.lle.order = .le ∧
    started.config.lbe = { started.config.lle with order := .be } ∧ Supports started 1 .lle ∧ Supports started 2 .lbe ∧
    encodeHeader started.config.lle 2 3 true true 0x210 0x0807060504030201 0x01C4 = .ok (bytes w1) ∧
    encodeHeader started.config.lbe 2 3 true true 0x210 0x0807060504030201 0x01C4 = .ok (bytes b1) ∧
    Memory.beginsWith (Memory.ofBytes (bytes w1)) (bytes w1) ∧ Memory.beginsWith (Memory.ofBytes (bytes b1)) (bytes b1) :=
  ⟨by decide, rfl, rfl, ⟨rfl, rfl⟩, ⟨rfl, rfl⟩, by rfl, by rfl, by unfold Memory.beginsWith; decide,
    by unfold Memory.beginsWith; decide⟩

theorem witness_CodecReadValue : (8 : BitVec 4).toNat ≤ 8 ∧ (0 : BitVec 4).toNat ≤ 8 := by decide

/-- The largest value of 2 bytes, and the one above it. -/
theorem witness_CodecWriteBytes : (2 : BitVec 4).toNat ≤ 8 ∧
    (State.codec started 0b100010 [] 0xFFFF).port.codecValue < 256 ^ (2 : BitVec 4).toNat ∧
    256 ^ (2 : BitVec 4).toNat ≤ (State.codec started 0b100010 [] 0x10000).port.codecValue := by decide

theorem witness_CodecReservedCounts : 8 < (9 : BitVec 4).toNat ∧ 8 < (15 : BitVec 4).toNat := by decide

theorem witness_CodecRoundTrip : ((8 : BitVec 4).toNat ≤ 8 ∧ 2 ^ 64 - 1 < 256 ^ (8 : BitVec 4).toNat) ∧
    (2 : BitVec 4).toNat ≤ 8 ∧ (bytes [0xC4, 1]).length = (2 : BitVec 4).toNat := by decide

theorem witness_CodecByteOrder : ((2 : BitVec 4).toNat ≤ 8 ∧ (bytes [0xC4, 1]).length = (2 : BitVec 4).toNat) ∧
    (1 : BitVec 4).toNat ≤ 1 ∧ (bytes [0xC4]).length = (1 : BitVec 4).toNat := by decide

end Sys2Proof.Tests
end

section
/-! What a decode request reads of its buffer (20_memory.md R42): each part of DecodeCommon (41_header_layouts.md R120)
answers the same on two buffers that agree where it reads. -/

namespace Sys2Proof.Machine

/-- Two snapshots hold the same bytes at the indices below `n`. -/
def Memory.AgreeBelow (n : Nat) (m m' : Memory) : Prop := ∀ a < n, Memory.read m a = Memory.read m' a

theorem Memory.AgreeBelow.mono {n k : Nat} {m m' : Memory} (h : Memory.AgreeBelow n m m') (hk : k ≤ n) :
    Memory.AgreeBelow k m m' := fun a ha => h a (ha.trans_le hk)

/-- A field's value depends on its own bytes only (R43). -/
theorem wireValue_congr (o : ByteOrder) {m m' : Memory} {i n : Nat} (h : Memory.AgreeBelow (i + n) m m') :
    wireValue o m i n = wireValue o m' i n := by
  have hread : ∀ k ∈ Finset.range n, Memory.read m (i + k) = Memory.read m' (i + k) := fun k hk =>
    h _ (Nat.add_lt_add_left (Finset.mem_range.1 hk) i)
  cases o with
  | le => exact Finset.sum_congr rfl fun k hk => by rw [hread k hk]
  | be => exact Finset.sum_congr rfl fun k hk => by rw [hread k hk]

/-- A header field that ends past `rem` is not read (R154), any other is read below its end. -/
theorem readField_congr (o : ByteOrder) {q : Request} {m : Memory} {p w : Nat}
    (h : Memory.AgreeBelow (min q.rem (p + w)) m q.buf) :
    readField o { q with buf := m } p w = readField o q p w := by
  rw [readField_eq, readField_eq]
  by_cases hp : p + w > q.rem
  · rw [if_pos hp, if_pos hp]
  · have hv : wireValue o m p w = wireValue o q.buf p w := wireValue_congr o (h.mono (by omega))
    simp only [hv]

theorem readLength_congr (o : ByteOrder) {q : Request} {m : Memory} {p : Nat} {d : Bool}
    (h : Memory.AgreeBelow (min q.rem (p + if d then lengthWidth else 0)) m q.buf) :
    readLength o { q with buf := m } p d = readLength o q p d := by
  cases d with
  | false => rfl
  | true =>
    unfold readLength
    rw [readField_congr (w := lengthWidth) o h]

/-- Steps 3 to 7 read only the header below `rem`, for any widths. -/
theorem decodeFields_congr (o : ByteOrder) {q : Request} {m : Memory} {ws wo : Nat} {f d : Bool}
    (h : Memory.AgreeBelow (min q.rem (headerLength ws wo d)) m q.buf) :
    decodeFields o { q with buf := m } ws wo f d = decodeFields o q ws wo f d := by
  have hend : 1 + ws + wo ≤ headerLength ws wo d := Nat.le_add_right _ _
  have hsid := readField_congr (p := 1) (w := ws) o (h.mono (by omega))
  have hoff := readField_congr (p := 1 + ws) (w := wo) o (h.mono (by omega))
  have hlen := readLength_congr (p := 1 + ws + wo) (d := d) o h
  unfold decodeFields
  rw [hsid, hoff, hlen]

/-- DecodeCommon reads only the header that its type byte announces, below `rem`. -/
theorem decodeCommon_congr (c : Config) {L : LayoutSpec} {q : Request} {m : Memory} {ws wo : Nat}
    (hw : WidthsAre L (typeByte q) ws wo)
    (h : Memory.AgreeBelow (min q.rem (headerLength ws wo (dlenFlag L (typeByte q)))) m q.buf) :
    decodeCommon c L { q with buf := m } = decodeCommon c L q := by
  rw [decodeCommon_eq, decodeCommon_eq]
  by_cases hrem : q.rem < 1
  · rw [if_pos hrem, if_pos hrem]
  · have htype : typeByte { q with buf := m } = typeByte q := h 0 (by unfold headerLength; omega)
    rw [if_neg hrem, if_neg hrem, htype, decodeTyped_eq hw, decodeTyped_eq hw, decodeFields_congr _ h]

/-- How a request ends does not look at the buffer, which stays on the port. -/
theorem State.finish_withBuf {s t : State} {e : Except Ending Response} (m : Memory) (h : s.finish e = .next t) :
    (s.withBuf m).finish e = .next (t.withBuf m) := by
  rcases State.finish_cases h with ⟨r, rfl | ⟨k, rfl, rfl⟩, rfl⟩ | ⟨f, rfl, rfl⟩ <;> rfl

theorem Supports.withBuf {s : State} {v : Version} {lay : Layout} (h : Supports s v lay) (m : Memory) :
    Supports (s.withBuf m) v lay := h

/-- Settles O39: DECODE is DecodeCommon of the version's layout, which reads only the header below `rem`. -/
theorem outcomeReadsOnlyHeader : Obligations.OutcomeReadsOnlyHeader := by
  intro v s t lay ws wo m hv hw hagree ht
  have hbelow : Memory.AgreeBelow
      (min s.port.rem (headerLength ws wo (dlenFlag (s.config.spec lay) (typeByte s.port)))) m s.port.buf :=
    fun a ha => hagree a (ha.trans_le (min_le_left _ _)) (ha.trans_le (min_le_right _ _))
  have hsame : decodeCommon s.config (s.config.spec lay) (s.withBuf m).port =
      decodeCommon s.config (s.config.spec lay) s.port := decodeCommon_congr _ hw hbelow
  rw [exec_decode_supported hv] at ht
  rw [exec_decode_supported (hv.withBuf m), State.withBuf_config, hsame]
  exact State.finish_withBuf m ht

end Sys2Proof.Machine
end

section
/-! What an accepted frame is (41_header_layouts.md R120, R127): each part of DecodeCommon, inverted at an `Ok` answer. Its
record is the wire's and its byte count stays within `rem`, under any configuration. -/

namespace Sys2Proof.Machine

/-- Steps 3 to 7, for any widths: what they accept ends within `rem` (R26). -/
theorem decodeFields_ok {o : ByteOrder} {q : Request} {ws wo : Nat} {f d : Bool} {r : Response}
    (h : decodeFields o q ws wo f d = .ok r) :
    ∃ dl, r = .ok (wireFrame o q.buf ws wo dl f) (headerLength ws wo d + dl) ∧ headerLength ws wo d + dl ≤ q.rem := by
  by_cases hw : ws ≤ 8 ∧ wo ≤ 8
  · rw [decodeFields_eq o q ws wo f d hw.1 hw.2] at h
    split_ifs at h with hhdr hambig hpay
    refine ⟨wireLength o q ws wo d, (Except.ok.inj h).symm, ?_⟩
    cases d with
    | false => exact (Nat.add_sub_of_le (not_lt.mp hhdr)).le
    | true => exact not_lt.mp fun hlong => hpay ⟨rfl, hlong⟩
  · rw [decodeFields_bad o q ws wo f d (by omega)] at h
    split_ifs at h

theorem decodeTyped_ok {c : Config} {L : LayoutSpec} {t : Byte} {q : Request} {r : Response}
    (h : decodeTyped c L t q = .ok r) :
    ∃ ws wo dl, WidthsAre L t ws wo ∧
      r = .ok (wireFrame L.order q.buf ws wo dl (finFlag L t)) (headerLength ws wo (dlenFlag L t) + dl) ∧
      headerLength ws wo (dlenFlag L t) + dl ≤ q.rem := by
  unfold decodeTyped at h
  split_ifs at h
  split at h
  next ws wo hs ho =>
    obtain ⟨dl, hr, hfit⟩ := decodeFields_ok h
    exact ⟨ws, wo, dl, ⟨hs, ho⟩, hr, hfit⟩
  next => cases h

/-- DecodeCommon accepts only what it accepts past the type byte. -/
theorem decodeTyped_of_decodeCommon_ok {c : Config} {L : LayoutSpec} {q : Request} {r : Response}
    (h : decodeCommon c L q = .ok r) : decodeTyped c L (typeByte q) q = .ok r := by
  rw [decodeCommon_eq] at h
  split_ifs at h
  exact h

/-- A code whose layout decoder gives a response is a layout's (R76). -/
theorem decodeByCode_ok {s : State} {code : BitVec 2} {r : Response} (h : decodeByCode s code = .ok r) :
    ∃ lay, decodeCommon s.config (s.config.spec lay) s.port = .ok r := by
  unfold decodeByCode at h
  split at h
  · exact ⟨.lle, h⟩
  · exact ⟨.lbe, h⟩
  · exact ⟨.mod, h⟩
  · cases h

/-- SEL answers with an entry of a ready table only (R170). -/
theorem selectLayout_ok {s : State} {v : Version} {code : BitVec 2} (h : selectLayout s v = .ok code) :
    s.tableReady = true ∧ Table.lookup s.dt v = some code := by
  unfold selectLayout at h
  split_ifs at h with hready
  split at h
  next => cases h
  next code' hentry => exact ⟨Bool.eq_true_of_not_eq_false hready, hentry.trans (congrArg some (Except.ok.inj h))⟩

/-- An accepted frame on the response port is what its request ended with. -/
theorem State.ok_of_finish_ok {s t : State} {e : Except Ending Response} {r : FrameRecord} {n : Nat}
    (h : s.finish e = .next t) (ht : t.response = some (.ok r n)) : e = .ok (.ok r n) := by
  rcases State.finish_cases h with ⟨r', hend, rfl⟩ | ⟨f, -, rfl⟩
  · obtain rfl : r' = .ok r n := Option.some.inj ht
    simpa using hend
  · cases ht

end Sys2Proof.Machine
end

section
/-! The invariant (10_state.md R22 to R25): one lemma per update of State, and what a response and an instruction of a
well-formed request satisfy; the step keeps it as a chain of these. -/

namespace Sys2Proof.Machine

/-! ### Each update of the state -/

theorem State.Inv.respond {s : State} {r : Response} (hs : s.Inv) (hr : Response.wf s.config r = true) :
    (s.respond r).Inv := { hs with response := hr }

theorem State.Inv.raiseFault {s : State} (hs : s.Inv) (f : ModelFault) : (s.raiseFault f).Inv :=
  { hs with response := rfl }

theorem State.Inv.setTable {s : State} {d : Table} (hs : s.Inv) (hd : Table.wf d = true)
    (htok : (d.all fun p => s.config.tokenFits p.1) = true) : (s.setTable d).Inv :=
  { hs with table := fun _ => hd, tokens := fun _ => htok, response := rfl }

/-- A port without a command constrains only the operands left on it. -/
theorem Request.wf_undriven {c : Config} {q : Request} (h : Request.wf c q = true) :
    Request.wf c { q with command := none } = true := by
  simp only [Request.wf, Bool.and_eq_true] at h ⊢
  exact ⟨h.1, trivial⟩

theorem State.Inv.retire {s : State} (hs : s.Inv) : s.retire.Inv := by
  have hq := hs.waiting
  unfold State.retire
  split
  next => exact { hs with port := Request.wf_undriven hs.port }
  next q qs hwait =>
    rw [hwait, List.all_cons, Bool.and_eq_true] at hq
    exact { hs with port := hq.1, waiting := hq.2 }

/-! ### Responses fit their ports -/

/-- An accepted frame is longer than its payload and no longer than `rem`, which fits its port (R23, R25, R151). -/
theorem decodeTyped_ok_wf {c : Config} {L : LayoutSpec} {t : Byte} {q : Request} {r : Response}
    (hq : Request.wf c q = true) (h : decodeTyped c L t q = .ok r) : Response.wf c r = true := by
  obtain ⟨ws, wo, dl, -, rfl, hfit⟩ := decodeTyped_ok h
  have hrem : q.rem < 2 ^ c.remBits := by
    simp only [Request.wf, Bool.and_eq_true, decide_eq_true_eq] at hq
    exact hq.1.1.1
  have hbits : 2 ^ c.remBits ≤ 2 ^ c.dlBits := Nat.pow_le_pow_right (by decide) (le_max_right _ _)
  have hconsumed : headerLength ws wo (dlenFlag L t) + dl < 2 ^ c.remBits := hfit.trans_lt hrem
  have hlonger : dl < headerLength ws wo (dlenFlag L t) + dl := by unfold headerLength; omega
  simp only [Response.wf, Bool.and_eq_true, decide_eq_true_eq]
  exact ⟨⟨⟨⟨(hlonger.trans hconsumed).trans_le hbits, hconsumed⟩, hlonger⟩, rfl⟩, rfl⟩

theorem Table.mem_of_lookup {t : Table} {v : Version} {code : BitVec 2} (h : Table.lookup t v = some code) :
    (v, code) ∈ t := by
  induction t with
  | nil => cases h
  | cons p t ih =>
    obtain ⟨u, c⟩ := p
    unfold Table.lookup at h
    split_ifs at h with hu
    · cases h; cases hu; exact List.mem_cons_self
    · exact List.mem_cons_of_mem _ (ih h)

/-- A well-formed table never gives the reserved code (R22). -/
theorem Table.lookup_ne_reserved {t : Table} {v : Version} {code : BitVec 2} (ht : Table.wf t = true)
    (h : Table.lookup t v = some code) : code ≠ 0b11 := by
  simp only [Table.wf, Bool.and_eq_true, List.all_eq_true, decide_eq_true_eq] at ht
  exact ht.2 _ (Table.mem_of_lookup h)

theorem codecWrite_ok_length {o : ByteOrder} {v n : Nat} {bs : List Byte} (h : codecWrite o v n = .ok bs) :
    bs.length ≤ 8 := by
  rw [codecWrite_eq] at h
  split_ifs at h with hn
  cases h
  rw [fieldBytes_length]
  exact not_lt.mp hn

/-- What maps to an `ok` was an `ok`. -/
theorem exists_of_map_eq_ok {ε α β : Type} {f : α → β} {e : Except ε α} {b : β} (h : e.map f = .ok b) :
    ∃ a, e = .ok a ∧ f a = b := by
  cases e with
  | error _ => cases h
  | ok a => exact ⟨a, rfl, Except.ok.inj h⟩

/-- Every response an instruction gives fits its port. -/
theorem ending_ok_wf {s : State} {i : Instr} {r : Response} (hs : s.Inv) (h : ending s i = .ok r) :
    Response.wf s.config r = true := by
  cases i with
  | tblInit | rsvLayout3 => cases h
  | fwRdLe | fwRdBe =>
    obtain ⟨_, -, rfl⟩ := exists_of_map_eq_ok h
    rfl
  | fwWrLe | fwWrBe =>
    obtain ⟨bs, hbs, rfl⟩ := exists_of_map_eq_ok h
    exact decide_eq_true (codecWrite_ok_length hbs)
  | sel v =>
    obtain ⟨code, hcode, rfl⟩ := exists_of_map_eq_ok h
    obtain ⟨hready, hentry⟩ := selectLayout_ok hcode
    exact decide_eq_true (Table.lookup_ne_reserved (hs.table hready) hentry)
  | decode v =>
    simp only [ending] at h
    cases hcode : selectLayout s v with
    | error _ => rw [hcode] at h; cases h
    | ok code =>
      rw [hcode] at h
      obtain ⟨lay, hlay⟩ := decodeByCode_ok h
      exact decodeTyped_ok_wf hs.port (decodeTyped_of_decodeCommon_ok hlay)
  | decLleX | decLleI | illLleAmbig | decLbeX | decLbeI | illLbeAmbig | decModX | decModI | illModAmbig =>
    simp only [ending, ending.formEnding] at h
    split_ifs at h
    exact decodeTyped_ok_wf hs.port h

/-! ### A well-formed request runs a well-formed instruction -/

/-- Rows that read well-formed instructions from a word give one (R77). -/
theorem readRows_wf {c : Config} {k : Nat} {rows : List (Row k)} {w : BitVec k} {i : Instr}
    (h : readRows rows w = some i) (hrows : ∀ row ∈ rows, Instr.wf c (row.read w) = true) : Instr.wf c i = true := by
  obtain ⟨row, hfind, rfl⟩ := Option.map_eq_some_iff.mp h
  exact hrows row (List.mem_of_find?_eq_some hfind)

/-- Every form of a decoder word is well formed (R76, R77). -/
theorem decode_decoder_wf {w : BitVec 10} {i : Instr} (c : Config) (h : decode (.decoder w) = .ok i) :
    Instr.wf c i = true := by
  simp only [decode] at h
  split at h
  next j hj =>
    cases h
    exact readRows_wf hj (by simp [decoderRows, Instr.wf])
  next => cases h

/-- Every form of a codec control word is well formed (R78). -/
theorem decode_codec_wf {w : BitVec 6} {i : Instr} (c : Config) (h : decode (.codec w) = .ok i) :
    Instr.wf c i = true := by
  simp only [decode] at h
  split at h
  next j hj =>
    cases h
    exact readRows_wf hj (by simp [codecRows, Instr.wf])
  next => cases h

/-- The instruction of a well-formed request is well formed: a port command keeps its operands (R79). -/
theorem decode_fetchWord_wf {c : Config} {q : Request} {w : PortWord} {i : Instr} (hq : Request.wf c q = true)
    (hw : fetchWord q = .word w) (hi : decode w = .ok i) : Instr.wf c i = true := by
  simp only [Request.wf, Bool.and_eq_true] at hq
  obtain ⟨-, hcmd⟩ := hq
  unfold fetchWord at hw
  split at hw
  next => cases hw
  next code _ => split_ifs at hw <;> cases hw <;> exact decode_decoder_wf c hi
  next => cases hw; exact decode_codec_wf c hi
  all_goals
    next hk =>
      rw [hk] at hcmd
      cases hw
      cases hi
      exact hcmd

/-! ### The instruction, the request, the step -/

/-- A well-formed instruction keeps the invariant. -/
theorem exec_keeps_inv {i : Instr} {s t : State} (hs : s.Inv) (hi : Instr.wf s.config i = true)
    (h : exec i s = .next t) : t.Inv := by
  rcases exec_ending_cases i s with hend | ⟨d, rfl, -, hbuild⟩
  · rw [hend] at h
    rcases State.finish_cases h with ⟨r, hr | ⟨k, -, rfl⟩, rfl⟩ | ⟨f, -, rfl⟩
    · exact hs.respond (ending_ok_wf hs hr)
    · exact hs.respond rfl
    · exact hs.raiseFault f
  · rw [hbuild] at h
    cases h
    have htok : (d.all fun p => s.config.tokenFits p.1) = true := (Bool.and_eq_true _ _ ▸ hi).2
    exact hs.setTable (Table.build_wf d) (Table.build_all htok)

/-- What serving can do: nothing, TRUNC_HDR, or the instruction of the request's word. -/
theorem serve_cases {s t : State} (h : serve s = .next t) :
    t = s ∨ t = s.respond (.fail .truncHdr) ∨
      ∃ w i, fetchWord s.port = .word w ∧ decode w = .ok i ∧ exec i s = .next t := by
  unfold serve at h
  split at h
  next => exact .inl (Host.Outcome.next.inj h).symm
  next => exact .inr (.inl (Host.Outcome.next.inj h).symm)
  next w hw =>
    split at h
    next i hi => exact .inr (.inr ⟨w, i, hw, hi, h⟩)
    next => cases h

theorem serve_keeps_inv {s t : State} (hs : s.Inv) (h : serve s = .next t) : t.Inv := by
  rcases serve_cases h with rfl | rfl | ⟨w, i, hw, hi, hexec⟩
  · exact hs
  · exact hs.respond rfl
  · exact exec_keeps_inv hs (decode_fetchWord_wf hs.port hw hi) hexec

/-- A step to a next state serves the request on the port and retires it. -/
theorem step_eq_next {s t : State} (h : step s = .next t) : ∃ u, serve s = .next u ∧ t = u.retire := by
  unfold step at h
  cases hu : serve s with
  | next u => rw [hu] at h; exact ⟨u, rfl, (Host.Outcome.next.inj h).symm⟩
  | fault | refused => rw [hu] at h; cases h

/-- Settles O3: what the request on the port does keeps the invariant, and so does bringing the next one there. -/
theorem stepKeepsInvariant : Obligations.StepKeepsInvariant := by
  intro s t hs h
  obtain ⟨u, hserve, rfl⟩ := step_eq_next h
  exact (serve_keeps_inv hs hserve).retire

/-- The port after reset carries no request and operands of every width. -/
theorem Request.idle_wf (c : Config) : Request.wf c Request.idle = true := by
  simp [Request.wf, Request.idle, Memory.wf, Memory.wfFrom]

/-- Before TBL.INIT the invariant says nothing of `DT` (R34). -/
theorem State.resetWith_inv {c : Config} (dt : Table) (hc : c.wf = true) : (State.resetWith c dt).Inv where
  config := hc
  table := fun hready => nomatch hready
  tokens := fun hready => nomatch hready
  port := Request.idle_wf c
  waiting := rfl
  response := rfl

/-- Settles O2: the machine's own reset is that of the default configuration with an empty table. -/
theorem resetMeetsInvariant : Obligations.ResetMeetsInvariant :=
  ⟨State.resetWith_inv [] (by decide), fun _ dt hc => State.resetWith_inv dt hc⟩

end Sys2Proof.Machine
end

section
/-! Fields of no byte (40_field_width_codec.md R104): the wire's value of one is 0, in a frame and in the codec. -/

namespace Sys2Proof.Machine

@[simp] theorem wireValue_zero_width (o : ByteOrder) (m : Memory) (i : Nat) : wireValue o m i 0 = 0 := by
  cases o <;> rfl

theorem codecReadOp_zero_width (o : ByteOrder) (s : State) :
    codecReadOp o 0 s = .next (afterResponse s (.value 0)) := by
  cases o <;> rfl

theorem codecWriteOp_zero_width (o : ByteOrder) {s : State} (h : s.port.codecValue = 0) :
    codecWriteOp o 0 s = .next (afterResponse s (.bytes [])) := by
  unfold codecWriteOp
  rw [h]
  cases o <;> rfl

/-- Settles O38: an accepted frame's record is the wire's, whose fields of no byte are 0. -/
theorem zeroWidthDefaults : Obligations.ZeroWidthDefaults := by
  refine ⟨fun v s t lay ws wo r n hv hw hexec hr => ?_, fun s => ⟨?_, ?_, fun hval => ⟨?_, ?_⟩⟩⟩
  · rw [exec_decode_supported hv] at hexec
    obtain ⟨ws', wo', dl, ⟨hs, ho⟩, hframe, -⟩ :=
      decodeTyped_ok (decodeTyped_of_decodeCommon_ok (State.ok_of_finish_ok hexec hr))
    obtain rfl : ws = ws' := Option.some.inj (hw.1.symm.trans hs)
    obtain rfl : wo = wo' := Option.some.inj (hw.2.symm.trans ho)
    obtain ⟨rfl, -⟩ := Response.ok.inj hframe
    constructor
    · rintro rfl
      simp [wireFrame]
    · rintro rfl
      simp [wireFrame]
  · exact codecReadOp_zero_width .le s
  · exact codecReadOp_zero_width .be s
  · exact codecWriteOp_zero_width .le hval
  · exact codecWriteOp_zero_width .be hval

end Sys2Proof.Machine
end

section
/-! How a request ends, as an effect on the state (00_scope.md R12): the response given and the model fault recorded.
What every instruction leaves unchanged (20_memory.md R41), and why two requests may be served in either order
(60_exceptions.md R201, 20_memory.md R54, R55). -/

namespace Sys2Proof.Machine

/-! ### The effect of an ending -/

/-- What an ending puts on the response port (R24): nothing after a model fault. -/
def answerOf : Except Ending Response → Option Response
  | .ok r => some r
  | .error (.fail k) => some (.fail k)
  | .error (.raise _) => none
  | .error (.stop _) => none

/-- What an ending records (R201): at most one model fault. -/
def faultsOf : Except Ending Response → List ModelFault
  | .ok _ => []
  | .error (.fail _) => []
  | .error (.raise f) => [f]
  | .error (.stop _) => []

/-- A request that ends writes the response port and the record of faults, and nothing else. -/
theorem State.eq_of_finish {s t : State} {e : Except Ending Response} (h : s.finish e = .next t) :
    t = { s with response := answerOf e, faults := faultsOf e ++ s.faults } := by
  rcases State.finish_cases h with ⟨r, rfl | ⟨k, rfl, rfl⟩, rfl⟩ | ⟨f, rfl, rfl⟩ <;> rfl

/-- Settles O19: an instruction other than TBL.INIT gives a response or records a fault, and each of the two updates
keeps every other field. -/
theorem frameOfRequests : Obligations.FrameOfRequests := by
  intro i s t hi h
  rcases exec_cases h with ⟨r, rfl⟩ | ⟨f, rfl⟩ | ⟨d, hd, -, -⟩
  · exact ⟨rfl, rfl, rfl, rfl, rfl, fun _ => rfl, fun _ => rfl, .inl ⟨⟨r, rfl⟩, rfl⟩⟩
  · exact ⟨rfl, rfl, rfl, rfl, rfl, fun _ => rfl, fun _ => rfl, .inr ⟨f, rfl, rfl⟩⟩
  · exact absurd hd (hi d)

/-! ### A request alone -/

/-- The ending of an instruction depends on the parameters, the table and the request port only. -/
theorem ending_congr {s t : State} (hconfig : s.config = t.config) (hready : s.tableReady = t.tableReady)
    (hdt : s.dt = t.dt) (hport : s.port = t.port) (i : Instr) : ending s i = ending t i := by
  obtain ⟨c, ready, dt, port, waiting, response, faults⟩ := s
  obtain ⟨c', ready', dt', port', waiting', response', faults'⟩ := t
  cases hconfig; cases hready; cases hdt; cases hport
  cases i <;> rfl

/-- How a driven request `q` ends once the table is ready: the ending of the instruction of its word, TRUNC_HDR when it has
no type byte (R120 step 1). An undriven port has no ending; its case is never used. -/
def requestEnding (s : State) (q : Request) : Except Ending Response :=
  match fetchWord q with
  | .idle => .error (.fail .truncHdr)
  | .noTypeByte => .error (.fail .truncHdr)
  | .word w =>
    match decode w with
    | .ok i => ending { s with port := q } i
    | .error _ => .error (.stop .noOpcodeRow)

/-- A request's ending depends on the parameters and the table only, whatever was answered, recorded or waits. -/
theorem requestEnding_congr {s t : State} (hconfig : s.config = t.config) (hready : s.tableReady = t.tableReady)
    (hdt : s.dt = t.dt) (q : Request) : requestEnding s q = requestEnding t q := by
  have hending : ending { s with port := q } = ending { t with port := q } :=
    funext (ending_congr hconfig hready hdt rfl)
  unfold requestEnding
  rw [hending]

theorem fetchWord_ne_idle {q : Request} (h : q.command ≠ none) : fetchWord q ≠ .idle := by
  unfold fetchWord
  split
  next hq => exact absurd hq h
  next => split_ifs <;> exact Fetched.noConfusion
  all_goals exact Fetched.noConfusion

/-- With the table ready, serving a driven request ends it in the one way that `requestEnding` says. -/
theorem serve_eq_finish {s : State} (hready : s.tableReady = true) (hcmd : s.port.command ≠ none) :
    serve s = s.finish (requestEnding s s.port) := by
  unfold serve requestEnding
  cases hw : fetchWord s.port with
  | idle => exact absurd hw (fetchWord_ne_idle hcmd)
  | noTypeByte => rfl
  | word w =>
    cases hi : decode w with
    | ok i => simp only [hi, exec_eq_finish i s (.inr hready)]
    | error e => simp only [hi, State.finish]

/-- With the table ready, a step on a driven request writes what its ending says, then brings the next request. -/
theorem step_ready_eq {s t : State} (h : step s = .next t) (hready : s.tableReady = true)
    (hcmd : s.port.command ≠ none) :
    t = State.retire { s with
      response := answerOf (requestEnding s s.port), faults := faultsOf (requestEnding s s.port) ++ s.faults } := by
  obtain ⟨u, hserve, rfl⟩ := step_eq_next h
  rw [serve_eq_finish hready hcmd] at hserve
  exact congrArg State.retire (State.eq_of_finish hserve)

/-! ### Two requests -/

/-- Two requests served one after the other, with the table ready: each ends as it does alone. -/
theorem step_step_ready {s t₁ t₂ : State} {a b : Request} (hready : s.tableReady = true) (ha : a.command ≠ none)
    (hb : b.command ≠ none) (h₁ : step { s with port := a, waiting := [b] } = .next t₁) (h₂ : step t₁ = .next t₂) :
    t₁.response = answerOf (requestEnding s a) ∧ t₂.response = answerOf (requestEnding s b) ∧ t₂.dt = s.dt ∧
      t₂.tableReady = s.tableReady ∧
      t₂.faults = faultsOf (requestEnding s b) ++ (faultsOf (requestEnding s a) ++ s.faults) := by
  have halone : requestEnding { s with port := a, waiting := [b] } a = requestEnding s a :=
    requestEnding_congr rfl rfl rfl a
  have ht₁ : t₁ = { s with
      port := b, waiting := [],
      response := answerOf (requestEnding s a), faults := faultsOf (requestEnding s a) ++ s.faults } := by
    rw [step_ready_eq h₁ hready ha, halone]
    rfl
  have hbalone : requestEnding t₁ b = requestEnding s b := by
    rw [ht₁]
    exact requestEnding_congr rfl rfl rfl b
  subst ht₁
  have ht₂ := step_ready_eq h₂ hready hb
  rw [hbalone] at ht₂
  subst ht₂
  simp

/-- Settles O8: in either order each request ends as it does alone, so only the order of the recorded faults differs. -/
theorem requestOrderDoesNotMatter : Obligations.RequestOrderDoesNotMatter := by
  intro s t₁ t₂ u₁ u₂ a b hready ha hb ht₁ ht₂ hu₁ hu₂
  obtain ⟨hta, htb, htdt, htready, htfaults⟩ := step_step_ready hready ha hb ht₁ ht₂
  obtain ⟨hub, hua, hudt, huready, hufaults⟩ := step_step_ready hready hb ha hu₁ hu₂
  refine ⟨hta.trans hua.symm, htb.trans hub.symm, htdt.trans hudt.symm, htready.trans huready.symm, ?_⟩
  rw [htfaults, hufaults]
  exact List.perm_append_comm_assoc _ _ _

end Sys2Proof.Machine
end

section
/-! Nothing stops the model (20_memory.md R42): under well-formed layout records each part of a decode ends in a response or
a model fault, and every word has an opcode row (30_encoding.md R77, R78). -/

namespace Sys2Proof.Machine

/-- A computation that does not end in a stop of the model. -/
def NoStop {α : Type} (e : Except Ending α) : Prop := ∀ f, e ≠ .error (.stop f)

@[simp] theorem noStop_ok {α : Type} (a : α) : NoStop (.ok a : Except Ending α) := fun _ h => nomatch h

@[simp] theorem noStop_fail {α : Type} (k : FailKind) : NoStop (.error (.fail k) : Except Ending α) :=
  fun _ h => nomatch h

@[simp] theorem noStop_raise {α : Type} (f : ModelFault) : NoStop (.error (.raise f) : Except Ending α) :=
  fun _ h => nomatch h

theorem NoStop.bind {α β : Type} {e : Except Ending α} {g : α → Except Ending β} (he : NoStop e)
    (hg : ∀ a, NoStop (g a)) : NoStop (e.bind g) := by
  cases e with
  | error x => exact fun f hx => he f (congrArg Except.error (Except.error.inj hx))
  | ok a => exact hg a

theorem NoStop.map {α β : Type} {e : Except Ending α} (he : NoStop e) (g : α → β) : NoStop (e.map g) := by
  cases e with
  | error x => exact fun f hx => he f (congrArg Except.error (Except.error.inj hx))
  | ok a => exact noStop_ok (g a)

/-! ### The codec, the decoders, the table -/

theorem codecRead_noStop (o : ByteOrder) (b : List Byte) (n : Nat) : NoStop (codecRead o b n) := by
  rw [codecRead_eq]
  split_ifs <;> simp

theorem codecWrite_noStop (o : ByteOrder) (v n : Nat) : NoStop (codecWrite o v n) := by
  rw [codecWrite_eq]
  split_ifs <;> simp

/-- Each field is checked against `rem` before it is read, so no read leaves the window (R42, R154). -/
theorem decodeFields_noStop (o : ByteOrder) (q : Request) {ws wo : Nat} (f d : Bool) (hs : ws ≤ 8) (ho : wo ≤ 8) :
    NoStop (decodeFields o q ws wo f d) := by
  rw [decodeFields_eq o q ws wo f d hs ho]
  split_ifs <;> simp

/-- A well-formed record has a width for every selector (R66). -/
theorem decodeTyped_noStop (c : Config) {L : LayoutSpec} (hL : L.wf = true) (t : Byte) (q : Request) :
    NoStop (decodeTyped c L t q) := by
  obtain ⟨ws, wo, hw, hs, ho⟩ := LayoutSpec.wf_widths hL t
  rw [decodeTyped_eq hw]
  split_ifs
  · simp
  · simp
  · exact decodeFields_noStop _ _ _ _ hs ho

theorem decodeCommon_noStop (c : Config) {L : LayoutSpec} (hL : L.wf = true) (q : Request) :
    NoStop (decodeCommon c L q) := by
  rw [decodeCommon_eq]
  split_ifs
  · simp
  · exact decodeTyped_noStop c hL _ q

theorem selectLayout_noStop (s : State) (v : Version) : NoStop (selectLayout s v) := by
  unfold selectLayout
  split_ifs
  · simp
  · split <;> simp

theorem decodeByCode_noStop {s : State} (hs : s.config.wf = true) (code : BitVec 2) : NoStop (decodeByCode s code) := by
  unfold decodeByCode
  split
  · exact decodeCommon_noStop _ (Config.wf_spec hs .lle) _
  · exact decodeCommon_noStop _ (Config.wf_spec hs .lbe) _
  · exact decodeCommon_noStop _ (Config.wf_spec hs .mod) _
  · simp

/-- No instruction's request ends in a stop under a well-formed configuration. -/
theorem ending_noStop {s : State} (hs : s.config.wf = true) (i : Instr) : NoStop (ending s i) := by
  cases i with
  | tblInit | rsvLayout3 => exact noStop_raise _
  | fwRdLe | fwRdBe => exact (codecRead_noStop _ _ _).map _
  | fwWrLe | fwWrBe => exact (codecWrite_noStop _ _ _).map _
  | sel v => exact (selectLayout_noStop s v).map _
  | decode v => exact (selectLayout_noStop s v).bind (decodeByCode_noStop hs)
  | decLleX | decLleI | illLleAmbig | decLbeX | decLbeI | illLbeAmbig | decModX | decModI | illModAmbig =>
    simp only [ending, ending.formEnding]
    split_ifs
    · simp
    · exact decodeTyped_noStop _ (Config.wf_spec hs _) _ _

/-! ### Every word has a row -/

theorem exists_readRows_of_any_fits {k : Nat} {rows : List (Row k)} {w : BitVec k}
    (h : (rows.any fun row => row.fits w) = true) : ∃ i, readRows rows w = some i := by
  obtain ⟨row, hrow⟩ := Option.isSome_iff_exists.mp (List.find?_isSome.trans List.any_eq_true.symm |>.mpr h)
  exact ⟨row.read w, by rw [readRows, hrow, Option.map_some]⟩

/-- The decoder rows cover every decoder word (R77). -/
theorem decoderRows_cover (w : BitVec 10) : (decoderRows.any fun row => row.fits w) = true := by
  revert w
  decide +kernel

/-- The codec rows cover every control word (R78). -/
theorem codecRows_cover (c : BitVec 6) : (codecRows.any fun row => row.fits c) = true := by
  revert c
  decide +kernel

/-- Every word decodes to an instruction (R77, R78, R79). -/
theorem exists_decode_eq_ok (w : PortWord) : ∃ i, decode w = .ok i := by
  cases w with
  | decoder w =>
    obtain ⟨i, hi⟩ := exists_readRows_of_any_fits (decoderRows_cover w)
    exact ⟨i, by rw [decode, hi]⟩
  | codec c =>
    obtain ⟨i, hi⟩ := exists_readRows_of_any_fits (codecRows_cover c)
    exact ⟨i, by rw [decode, hi]⟩
  | sel v => exact ⟨.sel v, rfl⟩
  | tblInit d => exact ⟨.tblInit d, rfl⟩
  | decode v => exact ⟨.decode v, rfl⟩

/-! ### The instruction and the step -/

theorem State.finish_answersNext (s : State) {e : Except Ending Response} (he : NoStop e) :
    answersNext (s.finish e) := by
  rcases e with (k | f | f) | r
  · exact ⟨_, rfl⟩
  · exact ⟨_, rfl⟩
  · exact absurd rfl (he f)
  · exact ⟨_, rfl⟩

theorem exec_answersNext {s : State} (hs : s.config.wf = true) (i : Instr) : answersNext (exec i s) := by
  rcases exec_ending_cases i s with hend | ⟨d, -, -, hbuild⟩
  · rw [hend]
    exact s.finish_answersNext (ending_noStop hs i)
  · exact ⟨_, hbuild⟩

theorem serve_answersNext {s : State} (hs : s.config.wf = true) : answersNext (serve s) := by
  unfold serve
  split
  next => exact ⟨s, rfl⟩
  next => exact s.finish_answersNext (noStop_fail _)
  next w _ =>
    obtain ⟨i, hi⟩ := exists_decode_eq_ok w
    rw [hi]
    exact exec_answersNext hs i

/-- Settles O4: no instruction ends in a stop, every word has an instruction, and retiring a request stops nothing. -/
theorem stepNeverStops : Obligations.StepNeverStops := by
  intro s hs
  obtain ⟨t, ht⟩ := serve_answersNext hs
  exact ⟨⟨t.retire, by rw [step, ht, retireNext]⟩, exec_answersNext hs⟩

end Sys2Proof.Machine
end

section
/-! The opcode map reads what it writes (30_encoding.md R77, R78, R79): one row fits a word, so a word that fits a
row means what that row reads; the fields of a type byte stand where R67 and R69 place them; every word is some
instruction's. -/

namespace Sys2Proof.Machine

open Sys2Proof.Laws

/-! ### The fields of a word -/

/-- A bit of the type byte stands at its own place in the decoder word (R77). -/
@[simp] theorem decoderWord_getElem (code : BitVec 2) (t : Byte) {i : Nat} (h : i < 8) :
    (decoderWord code t)[i] = t[i] :=
  (BitVec.getElem_append (x := code) (y := t) (by omega)).trans (dif_pos h)

/-- A field of the type byte stands at its own place in the decoder word (R77). -/
@[simp] theorem decoderWord_extractLsb' (code : BitVec 2) (t : Byte) {lo n : Nat} (h : lo + n ≤ 8) :
    (decoderWord code t).extractLsb' lo n = t.extractLsb' lo n := by
  ext i hi
  have hword : lo + i < 10 := by omega
  have hbyte : lo + i < 8 := by omega
  simp [BitVec.getLsbD_eq_getElem hword, hbyte]

section
variable (m f d : Bool) (oo ss : BitVec 2) (r : Bool)

@[simp] theorem legacyByte_marker : (legacyByte m f d oo ss r)[7] = m := by
  revert m f d oo ss r
  decide +kernel

@[simp] theorem legacyByte_fin : (legacyByte m f d oo ss r)[6] = f := by
  revert m f d oo ss r
  decide +kernel

@[simp] theorem legacyByte_dlen : (legacyByte m f d oo ss r)[5] = d := by
  revert m f d oo ss r
  decide +kernel

@[simp] theorem legacyByte_offSelector : (legacyByte m f d oo ss r).extractLsb' 3 2 = oo := by
  revert m f d oo ss r
  decide +kernel

@[simp] theorem legacyByte_sidSelector : (legacyByte m f d oo ss r).extractLsb' 1 2 = ss := by
  revert m f d oo ss r
  decide +kernel

@[simp] theorem legacyByte_reserved : (legacyByte m f d oo ss r)[0] = r := by
  revert m f d oo ss r
  decide +kernel

end

section
variable (pp : BitVec 2) (f : Bool) (ss oo : BitVec 2) (d : Bool)

@[simp] theorem modernByte_marker : (modernByte pp f ss oo d).extractLsb' 6 2 = pp := by
  revert pp f ss oo d
  decide +kernel

@[simp] theorem modernByte_fin : (modernByte pp f ss oo d)[5] = f := by
  revert pp f ss oo d
  decide +kernel

@[simp] theorem modernByte_sidSelector : (modernByte pp f ss oo d).extractLsb' 3 2 = ss := by
  revert pp f ss oo d
  decide +kernel

@[simp] theorem modernByte_offSelector : (modernByte pp f ss oo d).extractLsb' 1 2 = oo := by
  revert pp f ss oo d
  decide +kernel

@[simp] theorem modernByte_dlen : (modernByte pp f ss oo d)[0] = d := by
  revert pp f ss oo d
  decide +kernel

end

@[simp] theorem codecWord_count (dir order : Bool) (n : BitVec 4) : (codecWord dir order n).extractLsb' 0 4 = n := by
  revert dir order n
  decide +kernel

/-! ### One row for each word -/

/-- Settles O15, by the masks and patterns of the rows at each word. -/
theorem everyWordFitsOneRow : Obligations.EveryWordFitsOneRow := by
  constructor <;> decide +kernel

/-- When one row fits a word, the word means what that row reads. -/
theorem readRows_of_fits {k : Nat} {rows : List (Row k)} {row : Row k} {w : BitVec k}
    (hone : (rows.filter fun row => row.fits w).length = 1) (hrow : row ∈ rows) (hfit : row.fits w = true) :
    readRows rows w = some (row.read w) := by
  obtain ⟨only, honly⟩ := List.length_eq_one_iff.mp hone
  have hmem : row ∈ rows.filter fun row => row.fits w := List.mem_filter.mpr ⟨hrow, hfit⟩
  rw [honly, List.mem_singleton] at hmem
  rw [readRows, ← List.head?_filter, honly, hmem, List.head?_cons, Option.map_some]

/-- A decoder word with the fixed bits of the row at an index means what that row reads. -/
theorem decode_decoder_of_row {w : BitVec 10} {i : Instr} (k : Nat) (hk : k < decoderRows.length)
    (hfixed : w &&& decoderRows[k].mask = decoderRows[k].pattern) (hread : decoderRows[k].read w = i) :
    decode (.decoder w) = .ok i := by
  rw [decode, readRows_of_fits (everyWordFitsOneRow.1 w) (List.getElem_mem hk) (beq_iff_eq.mpr hfixed), hread]

theorem decode_codec_of_row {c : BitVec 6} {i : Instr} (k : Nat) (hk : k < codecRows.length)
    (hfixed : c &&& codecRows[k].mask = codecRows[k].pattern) (hread : codecRows[k].read c = i) :
    decode (.codec c) = .ok i := by
  rw [decode, readRows_of_fits (everyWordFitsOneRow.2 c) (List.getElem_mem hk) (beq_iff_eq.mpr hfixed), hread]

/-! ### Decode and encode -/

/-- Settles O13: an instruction's word has the fixed bits of its own row (`Laws.RowFit`), the only row that
fits, and that row reads each operand from where the encoder puts it. -/
theorem decodeOfEncode : Obligations.DecodeOfEncode := by
  intro i
  cases i with
  | decLleX m f oo ss r =>
    exact decode_decoder_of_row 0 (by decide) (RowFit.legacyWord_bits_explicit 0b00 m f oo ss r) (by simp [decoderRows])
  | decLleI m oo ss r =>
    exact decode_decoder_of_row 1 (by decide) (RowFit.legacyWord_bits 0b00 m true false oo ss r) (by simp [decoderRows])
  | illLleAmbig m oo ss r =>
    exact decode_decoder_of_row 2 (by decide) (RowFit.legacyWord_bits 0b00 m false false oo ss r)
      (by simp [decoderRows])
  | decLbeX m f oo ss r =>
    exact decode_decoder_of_row 3 (by decide) (RowFit.legacyWord_bits_explicit 0b01 m f oo ss r) (by simp [decoderRows])
  | decLbeI m oo ss r =>
    exact decode_decoder_of_row 4 (by decide) (RowFit.legacyWord_bits 0b01 m true false oo ss r) (by simp [decoderRows])
  | illLbeAmbig m oo ss r =>
    exact decode_decoder_of_row 5 (by decide) (RowFit.legacyWord_bits 0b01 m false false oo ss r)
      (by simp [decoderRows])
  | decModX pp f ss oo =>
    exact decode_decoder_of_row 6 (by decide) (RowFit.modernWord_bits_explicit pp f ss oo) (by simp [decoderRows])
  | decModI pp ss oo =>
    exact decode_decoder_of_row 7 (by decide) (RowFit.modernWord_bits pp true ss oo false) (by simp [decoderRows])
  | illModAmbig pp ss oo =>
    exact decode_decoder_of_row 8 (by decide) (RowFit.modernWord_bits pp false ss oo false) (by simp [decoderRows])
  | rsvLayout3 x =>
    exact decode_decoder_of_row 9 (by decide) (RowFit.reservedWord_bits x) (congrArg _ (decoderWord_byte 0b11 x))
  | fwRdLe n => exact decode_codec_of_row 0 (by decide) (RowFit.codecWord_bits false false n) (by simp [codecRows])
  | fwRdBe n => exact decode_codec_of_row 1 (by decide) (RowFit.codecWord_bits false true n) (by simp [codecRows])
  | fwWrLe n => exact decode_codec_of_row 2 (by decide) (RowFit.codecWord_bits true false n) (by simp [codecRows])
  | fwWrBe n => exact decode_codec_of_row 3 (by decide) (RowFit.codecWord_bits true true n) (by simp [codecRows])
  | sel | tblInit | decode => rfl

/-- Every byte is a Legacy type byte (R67). -/
theorem exists_legacyByte_eq (t : Byte) : ∃ m f d oo ss r, legacyByte m f d oo ss r = t :=
  ⟨t.getLsbD 7, t.getLsbD 6, t.getLsbD 5, t.extractLsb' 3 2, t.extractLsb' 1 2, t.getLsbD 0, by
    revert t
    decide +kernel⟩

/-- Every byte is a Modern type byte (R69). -/
theorem exists_modernByte_eq (t : Byte) : ∃ pp f ss oo d, modernByte pp f ss oo d = t :=
  ⟨t.extractLsb' 6 2, t.getLsbD 5, t.extractLsb' 3 2, t.extractLsb' 1 2, t.getLsbD 0, by
    revert t
    decide +kernel⟩

theorem exists_decoderWord_eq (w : BitVec 10) : ∃ code t, decoderWord code t = w :=
  ⟨w.extractLsb' 8 2, w.extractLsb' 0 8, by
    revert w
    decide +kernel⟩

theorem exists_codecWord_eq (c : BitVec 6) : ∃ dir order n, codecWord dir order n = c :=
  ⟨c.getLsbD 5, c.getLsbD 4, c.extractLsb' 0 4, by
    revert c
    decide +kernel⟩

/-- A layout code is a layout's or the reserved one (R76). -/
theorem eq_layoutCode_or_reserved (code : BitVec 2) : (∃ lay, code = layoutCode lay) ∨ code = 0b11 := by
  by_cases h : code = 0b11
  · exact .inr h
  · have hcode : code = 0b00 ∨ code = 0b01 ∨ code = 0b10 := by
      revert code
      decide
    rcases hcode with rfl | rfl | rfl
    · exact .inl ⟨.lle, rfl⟩
    · exact .inl ⟨.lbe, rfl⟩
    · exact .inl ⟨.mod, rfl⟩

/-- Every word of a layout is the word of one of its three forms, by `D` and then `F` (R75, R77). -/
theorem exists_encode_eq_layoutWord (lay : Layout) (t : Byte) :
    ∃ i, encode i = .decoder (decoderWord (layoutCode lay) t) := by
  cases lay with
  | lle =>
    obtain ⟨m, f, d, oo, ss, r, rfl⟩ := exists_legacyByte_eq t
    match d, f with
    | true, f => exact ⟨.decLleX m f oo ss r, rfl⟩
    | false, true => exact ⟨.decLleI m oo ss r, rfl⟩
    | false, false => exact ⟨.illLleAmbig m oo ss r, rfl⟩
  | lbe =>
    obtain ⟨m, f, d, oo, ss, r, rfl⟩ := exists_legacyByte_eq t
    match d, f with
    | true, f => exact ⟨.decLbeX m f oo ss r, rfl⟩
    | false, true => exact ⟨.decLbeI m oo ss r, rfl⟩
    | false, false => exact ⟨.illLbeAmbig m oo ss r, rfl⟩
  | mod =>
    obtain ⟨pp, f, ss, oo, d, rfl⟩ := exists_modernByte_eq t
    match d, f with
    | true, f => exact ⟨.decModX pp f ss oo, rfl⟩
    | false, true => exact ⟨.decModI pp ss oo, rfl⟩
    | false, false => exact ⟨.illModAmbig pp ss oo, rfl⟩

/-- Every word is the word of an instruction. -/
theorem exists_encode_eq (w : PortWord) : ∃ i, encode i = w := by
  cases w with
  | decoder w =>
    obtain ⟨code, t, rfl⟩ := exists_decoderWord_eq w
    rcases eq_layoutCode_or_reserved code with ⟨lay, rfl⟩ | rfl
    · exact exists_encode_eq_layoutWord lay t
    · exact ⟨.rsvLayout3 t, rfl⟩
  | codec c =>
    obtain ⟨dir, order, n, rfl⟩ := exists_codecWord_eq c
    match dir, order with
    | false, false => exact ⟨.fwRdLe n, rfl⟩
    | false, true => exact ⟨.fwRdBe n, rfl⟩
    | true, false => exact ⟨.fwWrLe n, rfl⟩
    | true, true => exact ⟨.fwWrBe n, rfl⟩
  | sel v => exact ⟨.sel v, rfl⟩
  | tblInit d => exact ⟨.tblInit d, rfl⟩
  | decode v => exact ⟨.decode v, rfl⟩

/-- Settles O14: the word is some instruction's, and that instruction is the one it decodes to. -/
theorem encodeOfDecode : Obligations.EncodeOfDecode := by
  intro w i h
  obtain ⟨j, rfl⟩ := exists_encode_eq w
  rw [decodeOfEncode j] at h
  rw [Except.ok.inj h]

end Sys2Proof.Machine
end

section
/-! From the command on the port to the instruction it runs (30_encoding.md R77 to R79, R84; 43_dispatch.md R174). -/

namespace Sys2Proof.Machine

/-- With a type byte there, the layout decoder of a layout is its decoder-word form on that byte (R84). -/
theorem finish_decodeCommon_eq_decodeForm (s : State) (lay : Layout) :
    s.finish (decodeCommon s.config (s.config.spec lay) s.port) = decodeForm lay (typeByte s.port) s := by
  rw [decodeCommon_eq, decodeForm_eq]

/-- Settles O25: for a layout's code DECODE is the layout decoder, which is the form of the word; for the reserved code
both record F_BAD_LAYOUT. -/
theorem decodeExpandsToForm : Obligations.DecodeExpandsToForm := by
  intro v s code hready hentry _
  rcases eq_layoutCode_or_reserved code with ⟨lay, rfl⟩ | rfl
  · obtain ⟨i, hi⟩ := exists_encode_eq_layoutWord lay (typeByte s.port)
    refine ⟨i, hi ▸ decodeOfEncode i, ?_⟩
    rw [exec_decode_supported ⟨hready, hentry⟩, finish_decodeCommon_eq_decodeForm, exec_of_word hi]
  · refine ⟨.rsvLayout3 (typeByte s.port), decodeOfEncode (.rsvLayout3 _), ?_⟩
    have hsel : selectLayout s v = .ok 0b11 := by simp [selectLayout, hready, hentry]
    rw [exec_eq_finish (.decode v) s (.inr hready), ending, hsel]
    rfl

theorem serve_of_word {s : State} {w : PortWord} {i : Instr} (hw : fetchWord s.port = .word w)
    (hi : decode w = .ok i) : serve s = exec i s := by
  simp [serve, hw, hi]

theorem fetchWord_header {q : Request} {code : BitVec 2} (h : q.command = some (.header code)) (hrem : 1 ≤ q.rem) :
    fetchWord q = .word (.decoder (decoderWord code (Memory.read q.buf 0))) := by
  simp [fetchWord, h, hrem]

theorem fetchWord_reserved {q : Request} (h : q.command = some (.header 0b11)) (hrem : q.rem = 0) :
    fetchWord q = .word (.decoder (decoderWord 0b11 0x00)) := by
  simp [fetchWord, h, hrem, blankByte]

/-- An undriven port leaves the state as it is (R214). -/
theorem serve_of_idle {s : State} (h : s.port.command = none) : serve s = .next s := by
  simp [serve, fetchWord, h]

theorem State.retire_of_waiting {s : State} {q : Request} {qs : List Request} (h : s.waiting = q :: qs) :
    s.retire = { s with port := q, waiting := qs } := by
  simp [State.retire, h]

theorem State.retire_of_none_waiting {s : State} (h : s.waiting = []) :
    s.retire = { s with port := { s.port with command := none } } := by
  simp [State.retire, h]

/-- Settles O9: a step serves the word of the driven command and retires the request, with none driven only retires. -/
theorem stepRunsDecodedInstruction : Obligations.StepRunsDecodedInstruction := by
  refine ⟨fun s w i hw hi => ?_, fun _ _ => fetchWord_header, fun _ => fetchWord_reserved, fun s c h => ?_,
    fun s v h => ?_, fun s d h => ?_, fun s v h => ?_, fun s q qs h hq => ?_, fun _ _ _ => State.retire_of_waiting,
    fun _ => State.retire_of_none_waiting⟩
  · rw [step, serve_of_word hw hi]
  · rw [fetchWord, h]
  · rw [fetchWord, h]
  · rw [fetchWord, h]
  · rw [fetchWord, h]
  · rw [step, serve_of_idle h, retireNext, State.retire_of_waiting hq]

end Sys2Proof.Machine
end

section
/-! What the default layout records read from a type byte (30_encoding.md R66 to R71), and the header lengths that
follow (R61, R62). -/

namespace Sys2Proof.Machine

/-! ### The fields -/

/-- A selector is the number of the bits it stands in (R9, R66). -/
theorem bitField_eq_toNat (t : Byte) (lo n : Nat) : bitField t lo n = (t.extractLsb' lo n).toNat := by
  rw [bitField, BitVec.extractLsb'_toNat, Nat.shiftRight_eq_div_pow]

theorem legacyByte_marker_iff (m f d : Bool) (oo ss : BitVec 2) (r : Bool) :
    legacyByte m f d oo ss r &&& 0x80 = 0x80 ↔ m = true := by
  revert m f d oo ss r
  decide +kernel

theorem legacyByte_reserved_iff (m f d : Bool) (oo ss : BitVec 2) (r : Bool) :
    legacyByte m f d oo ss r &&& 0x01 = 0 ↔ r = false := by
  revert m f d oo ss r
  decide +kernel

theorem modernByte_marker_iff (pp : BitVec 2) (f : Bool) (ss oo : BitVec 2) (d : Bool) :
    modernByte pp f ss oo d &&& 0xC0 = 0xC0 ↔ pp = 0b11 := by
  revert pp f ss oo d
  decide +kernel

theorem legacy_sidSelector {L : LayoutSpec} (hL : L = layoutLle ∨ L = layoutLbe) (m f d : Bool) (oo ss : BitVec 2)
    (r : Bool) : sidSelector L (legacyByte m f d oo ss r) = ss.toNat := by
  rcases hL with rfl | rfl <;> exact (bitField_eq_toNat _ 1 2).trans (by rw [legacyByte_sidSelector])

theorem legacy_offSelector {L : LayoutSpec} (hL : L = layoutLle ∨ L = layoutLbe) (m f d : Bool) (oo ss : BitVec 2)
    (r : Bool) : offSelector L (legacyByte m f d oo ss r) = oo.toNat := by
  rcases hL with rfl | rfl <;> exact (bitField_eq_toNat _ 3 2).trans (by rw [legacyByte_offSelector])

theorem modern_sidSelector (pp : BitVec 2) (f : Bool) (ss oo : BitVec 2) (d : Bool) :
    sidSelector layoutMod (modernByte pp f ss oo d) = ss.toNat :=
  (bitField_eq_toNat _ 3 2).trans (by rw [modernByte_sidSelector])

theorem modern_offSelector (pp : BitVec 2) (f : Bool) (ss oo : BitVec 2) (d : Bool) :
    offSelector layoutMod (modernByte pp f ss oo d) = oo.toNat :=
  (bitField_eq_toNat _ 1 2).trans (by rw [modernByte_offSelector])

/-- Settles O17: each record names the positions that R67 and R69 give the fields of its type byte. -/
theorem typeByteFieldsAreRead : Obligations.TypeByteFieldsAreRead := by
  refine ⟨fun m f d oo ss r L hL => ?_, fun pp f ss oo d => ?_⟩
  · have hsid := legacy_sidSelector hL m f d oo ss r
    have hoff := legacy_offSelector hL m f d oo ss r
    have hmarker := legacyByte_marker_iff m f d oo ss r
    have hreserved := legacyByte_reserved_iff m f d oo ss r
    rcases hL with rfl | rfl <;>
      exact ⟨legacyByte_fin .., legacyByte_dlen .., hsid, hoff, hmarker, hreserved⟩
  · exact ⟨modernByte_fin .., modernByte_dlen .., modern_sidSelector .., modern_offSelector ..,
      modernByte_marker_iff .., BitVec.and_zero⟩

/-! ### The widths and the header length -/

/-- A table of four widths, indexed by a selector. -/
theorem getElem?_toNat_eq_vecCons (a b c d : Nat) (x : BitVec 2) :
    [a, b, c, d][x.toNat]? = some (![a, b, c, d] x.toFin) := by
  obtain ⟨x⟩ := x
  fin_cases x <;> rfl

theorem legacy_widthsAre {L : LayoutSpec} (hL : L = layoutLle ∨ L = layoutLbe) (m f d : Bool) (oo ss : BitVec 2)
    (r : Bool) :
    WidthsAre L (legacyByte m f d oo ss r) (![1, 2, 4, 8] ss.toFin) (![0, 2, 4, 8] oo.toFin) := by
  rw [WidthsAre, sidWidth, offWidth, legacy_sidSelector hL, legacy_offSelector hL]
  rcases hL with rfl | rfl <;> exact ⟨getElem?_toNat_eq_vecCons .., getElem?_toNat_eq_vecCons ..⟩

theorem modern_widthsAre (pp : BitVec 2) (f : Bool) (ss oo : BitVec 2) (d : Bool) :
    WidthsAre layoutMod (modernByte pp f ss oo d) (![0, 1, 2, 4] ss.toFin) (![0, 2, 4, 8] oo.toFin) := by
  rw [WidthsAre, sidWidth, offWidth, modern_sidSelector, modern_offSelector]
  exact ⟨getElem?_toNat_eq_vecCons .., getElem?_toNat_eq_vecCons ..⟩

/-- The widths of a type byte are entries of the record's tables (R66). -/
theorem WidthsAre.mem {L : LayoutSpec} {t : Byte} {ws wo : Nat} (h : WidthsAre L t ws wo) :
    ws ∈ L.sidTab ∧ wo ∈ L.offTab :=
  ⟨List.mem_of_getElem? h.1, List.mem_of_getElem? h.2⟩

theorem legacy_width_bounds {L : LayoutSpec} {t : Byte} {ws wo : Nat} (hL : L = layoutLle ∨ L = layoutLbe)
    (h : WidthsAre L t ws wo) : 1 ≤ ws ∧ ws ≤ 8 ∧ wo ≤ 8 := by
  obtain ⟨hs, ho⟩ := h.mem
  have hsid : ∀ n ∈ legacySidTab, 1 ≤ n ∧ n ≤ 8 := by decide
  have hoff : ∀ n ∈ legacyOffTab, n ≤ 8 := by decide
  rcases hL with rfl | rfl <;> exact ⟨(hsid ws hs).1, (hsid ws hs).2, hoff wo ho⟩

theorem modern_width_bounds {t : Byte} {ws wo : Nat} (h : WidthsAre layoutMod t ws wo) : ws ≤ 4 ∧ wo ≤ 8 := by
  obtain ⟨hs, ho⟩ := h.mem
  have hsid : ∀ n ∈ modernSidTab, n ≤ 4 := by decide
  have hoff : ∀ n ∈ modernOffTab, n ≤ 8 := by decide
  exact ⟨hsid ws hs, hoff wo ho⟩

/-- A header is its three fixed parts and at most the length field (R61). -/
theorem headerLength_bounds (ws wo : Nat) (d : Bool) :
    1 + ws + wo ≤ headerLength ws wo d ∧ headerLength ws wo d ≤ 3 + ws + wo := by
  unfold headerLength lengthWidth
  split <;> omega

/-- Settles O18: the widths are the tables' entries, whose bounds bound the header; a type byte reaches each bound. -/
theorem headerLengthRange : Obligations.HeaderLengthRange := by
  refine ⟨⟨rfl, rfl, rfl, rfl⟩, fun m f d oo ss r L hL => legacy_widthsAre hL m f d oo ss r, modern_widthsAre,
    fun _ _ => ⟨rfl, rfl⟩, fun L t ws wo hL h => ?_, fun t ws wo h => ?_, fun L hL => ?_, ?_⟩
  · have hw := legacy_width_bounds hL h
    have hh := headerLength_bounds ws wo (dlenFlag L t)
    omega
  · have hw := modern_width_bounds h
    have hh := headerLength_bounds ws wo (dlenFlag layoutMod t)
    omega
  · rcases hL with rfl | rfl <;> exact ⟨⟨rfl, rfl⟩, rfl, ⟨rfl, rfl⟩, rfl⟩
  · exact ⟨⟨rfl, rfl⟩, rfl, ⟨rfl, rfl⟩, rfl⟩

end Sys2Proof.Machine
end

section
/-! The codec reads and writes the same values (40_field_width_codec.md R109, R110): writing a field's bytes and taking a
byte sequence's value undo each other, and the two byte orders are each other's reversal. -/

namespace Sys2Proof.Machine

/-! ### The bytes of a value and the value of bytes -/

/-- The first little-endian byte is the low one, and the others are the bytes of the rest. -/
theorem leBytes_succ (v n : Nat) : leBytes v (n + 1) = BitVec.ofNat 8 v :: leBytes (v / 256) n := by
  have hlow : BitVec.ofNat 8 (v % 256) = BitVec.ofNat 8 v := BitVec.eq_of_toNat_eq (by simp)
  have hrest (k : Nat) : v / 256 ^ (k + 1) = v / 256 / 256 ^ k := by rw [pow_succ', Nat.div_div_eq_div_mul]
  simp [leBytes, List.range_succ_eq_map, Function.comp_def, hlow, hrest]

theorem beBytes_eq_reverse_leBytes (v n : Nat) : beBytes v n = (leBytes v n).reverse := by
  refine List.ext_getElem (by simp [beBytes, leBytes]) fun k _ _ => ?_
  simp [beBytes, leBytes]

theorem leValue_leBytes {v n : Nat} (h : v < 256 ^ n) : leValue (leBytes v n) = v := by
  induction n generalizing v with
  | zero =>
    obtain rfl : v = 0 := by omega
    rfl
  | succ n ih =>
    have hrest : v / 256 < 256 ^ n := Nat.div_lt_of_lt_mul (by rwa [← pow_succ'])
    rw [leBytes_succ, leValue_cons, ih hrest, BitVec.toNat_ofNat]
    exact Nat.mod_add_div v 256

theorem leBytes_leValue (bs : List Byte) : leBytes (leValue bs) bs.length = bs := by
  induction bs with
  | nil => rfl
  | cons b bs ih =>
    have hb : b.toNat < 256 := b.isLt
    have hlow : BitVec.ofNat 8 (b.toNat + 256 * leValue bs) = b := by
      apply BitVec.eq_of_toNat_eq
      rw [BitVec.toNat_ofNat]
      omega
    have hrest : (b.toNat + 256 * leValue bs) / 256 = leValue bs := by omega
    rw [List.length_cons, leValue_cons, leBytes_succ, hlow, hrest, ih]

/-- A value that fits is the value of its bytes (R109). -/
theorem fieldValue_fieldBytes (o : ByteOrder) {v n : Nat} (h : v < 256 ^ n) : fieldValue o (fieldBytes o v n) = v := by
  cases o with
  | le => exact leValue_leBytes h
  | be =>
    show beValue (beBytes v n) = v
    rw [beValue_eq_leValue_reverse, beBytes_eq_reverse_leBytes, List.reverse_reverse, leValue_leBytes h]

/-- A byte sequence is the bytes of its value (R109). -/
theorem fieldBytes_fieldValue (o : ByteOrder) (bs : List Byte) : fieldBytes o (fieldValue o bs) bs.length = bs := by
  cases o with
  | le => exact leBytes_leValue bs
  | be =>
    show beBytes (beValue bs) bs.length = bs
    rw [beValue_eq_leValue_reverse, beBytes_eq_reverse_leBytes, ← List.length_reverse, leBytes_leValue,
      List.reverse_reverse]

/-! ### The instructions -/

/-- A codec read of a laid-out byte sequence of its count answers the sequence's value (R101, R102). -/
theorem codecReadOp_ofBytes (o : ByteOrder) {n : BitVec 4} (s : State) {bs : List Byte} (hn : n.toNat ≤ 8)
    (hlen : bs.length = n.toNat) :
    codecReadOp o n (s.withCodecBytes (Memory.ofBytes bs)) =
      .next (afterResponse (s.withCodecBytes (Memory.ofBytes bs)) (.value (BitVec.ofNat 64 (fieldValue o bs)))) := by
  unfold codecReadOp
  rw [State.withCodecBytes_codecBytes, ← hlen, Memory.readN_ofBytes, codecRead_eq, if_neg (by omega)]
  rfl

/-- A codec write of a value that fits its count answers the value's bytes (R105, R106). -/
theorem codecWriteOp_fits (o : ByteOrder) {n : BitVec 4} {s : State} (hn : n.toNat ≤ 8)
    (hv : s.port.codecValue < 256 ^ n.toNat) :
    codecWriteOp o n s = .next (afterResponse s (.bytes (fieldBytes o s.port.codecValue n.toNat))) := by
  unfold codecWriteOp
  rw [codecWrite_eq, if_neg (Nat.not_lt.2 hn), if_neg (Nat.not_le.2 hv)]
  rfl

/-- A read value of at most 8 bytes fits the codec's 64 bits (R103). -/
theorem toNat_ofNat_fieldValue (o : ByteOrder) {bs : List Byte} (h : bs.length ≤ 8) :
    (BitVec.ofNat 64 (fieldValue o bs)).toNat = fieldValue o bs := by
  rw [BitVec.toNat_ofNat]
  exact Nat.mod_eq_of_lt ((fieldValue_lt o bs).trans_le (pow256_le h))

/-- What a write gave reads back as the value. -/
theorem codecReadOp_of_codecWriteOp (o : ByteOrder) {n : BitVec 4} (s : State) {v : Nat} (hn : n.toNat ≤ 8)
    (hv : v < 256 ^ n.toNat) :
    ∃ bs, codecWriteOp o n (s.withCodecValue v) = .next (afterResponse (s.withCodecValue v) (.bytes bs)) ∧
      codecReadOp o n (s.withCodecBytes (Memory.ofBytes bs)) =
        .next (afterResponse (s.withCodecBytes (Memory.ofBytes bs)) (.value (BitVec.ofNat 64 v))) := by
  refine ⟨fieldBytes o v n.toNat, codecWriteOp_fits o hn hv, ?_⟩
  rw [codecReadOp_ofBytes o s hn (fieldBytes_length o v n.toNat), fieldValue_fieldBytes o hv]

/-- What a read gave writes back as the bytes. -/
theorem codecWriteOp_of_codecReadOp (o : ByteOrder) {n : BitVec 4} (s : State) {bs : List Byte} (hn : n.toNat ≤ 8)
    (hlen : bs.length = n.toNat) :
    ∃ x, codecReadOp o n (s.withCodecBytes (Memory.ofBytes bs)) =
        .next (afterResponse (s.withCodecBytes (Memory.ofBytes bs)) (.value x)) ∧
      codecWriteOp o n (s.withCodecValue x.toNat) = .next (afterResponse (s.withCodecValue x.toNat) (.bytes bs)) := by
  refine ⟨_, codecReadOp_ofBytes o s hn hlen, ?_⟩
  have hv : fieldValue o bs < 256 ^ n.toNat := hlen ▸ fieldValue_lt o bs
  rw [toNat_ofNat_fieldValue o (hlen.trans_le hn), codecWriteOp_fits o hn hv, State.withCodecValue_codecValue, ← hlen,
    fieldBytes_fieldValue]

/-- Settles O45: in each byte order the bytes of a value and the value of bytes undo each other. -/
theorem codecRoundTrip : Obligations.CodecRoundTrip :=
  ⟨fun _ s _ hn hv => ⟨codecReadOp_of_codecWriteOp .le s hn hv, codecReadOp_of_codecWriteOp .be s hn hv⟩,
    fun _ s _ hn hlen => ⟨codecWriteOp_of_codecReadOp .le s hn hlen, codecWriteOp_of_codecReadOp .be s hn hlen⟩⟩

/-- A sequence of at most one byte is its own reversal. -/
theorem reverse_eq_self_of_length_le_one {bs : List Byte} (h : bs.length ≤ 1) : bs.reverse = bs := by
  match bs, h with
  | [], _ => rfl
  | [_], _ => rfl

/-- Settles O46: the big-endian value is the little-endian value of the reversed bytes, which at most one byte are
themselves. -/
theorem codecByteOrder : Obligations.CodecByteOrder := by
  intro n s bs hn hlen
  have hbe : fieldValue .be bs = fieldValue .le bs.reverse := beValue_eq_leValue_reverse bs
  refine ⟨_, codecReadOp_ofBytes .be s hn hlen, ?_, fun hone => ?_⟩
  · rw [hbe]
    exact codecReadOp_ofBytes .le s hn (by rwa [List.length_reverse])
  · rw [hbe, reverse_eq_self_of_length_le_one (hlen.trans_le hone)]
    exact codecReadOp_ofBytes .le s hn hlen

end Sys2Proof.Machine
end

section
/-! How a request ends does not look at its history (41_header_layouts.md R129, 60_exceptions.md R206), and a layout
decoder driven on the port is DecodeCommon of its record (R121 to R123, 30_encoding.md R84). -/

namespace Sys2Proof.Machine

/-- An ending that is a next state from one state is one from any other, with the same answer and the same new fault. -/
theorem State.finish_of_finish {s t : State} {e : Except Ending Response} (h : s.finish e = .next t) (s' : State) :
    s'.finish e = .next { s' with response := answerOf e, faults := faultsOf e ++ s'.faults } := by
  rcases State.finish_cases h with ⟨r, rfl | ⟨k, rfl, rfl⟩, rfl⟩ | ⟨f, rfl, rfl⟩ <;> rfl

/-- Settles O7: an ending is a function of the parameters, the table and the port, a first TBL.INIT one of its operand.
-/
theorem outcomeIgnoresHistory : Obligations.OutcomeIgnoresHistory := by
  intro i s t resp fs qs h
  by_cases hends : (∀ d, i ≠ .tblInit d) ∨ s.tableReady = true
  · rw [exec_eq_finish i s hends] at h
    obtain rfl := State.eq_of_finish h
    have hsame : ending { s with response := resp, faults := fs, waiting := qs } i = ending s i :=
      ending_congr rfl rfl rfl rfl i
    have hexec := exec_eq_finish i { s with response := resp, faults := fs, waiting := qs } hends
    rw [hsame, State.finish_of_finish h] at hexec
    exact ⟨_, faultsOf (ending s i), hexec, rfl, rfl, rfl, rfl, rfl, rfl⟩
  · push Not at hends
    obtain ⟨⟨d, rfl⟩, hready⟩ := hends
    have hready : s.tableReady = false := Bool.eq_false_of_not_eq_true hready
    rw [exec_tblInit_first d s hready, Host.Outcome.next.injEq] at h
    subst h
    exact ⟨_, [], exec_tblInit_first d _ hready, rfl, rfl, rfl, rfl, rfl, rfl⟩

/-- Without a type byte a layout's code forms no word (R154). -/
theorem fetchWord_noTypeByte {q : Request} {lay : Layout} (h : q.command = some (.header (layoutCode lay)))
    (hrem : q.rem < 1) : fetchWord q = .noTypeByte := by
  have hcode : layoutCode lay ≠ 3#2 := layoutCode_ne_reserved lay
  simp [fetchWord, h, Nat.not_le.2 hrem, hcode]

theorem serve_of_noTypeByte {s : State} (h : fetchWord s.port = .noTypeByte) :
    serve s = s.finish (.error (.fail .truncHdr)) := by
  simp [serve, h]

/-- Settles O12: with a type byte the word is one of the layout's forms, which is the layout decoder on that byte;
without one both answer TRUNC_HDR. -/
theorem headerCommandIsDecodeCommon : Obligations.HeaderCommandIsDecodeCommon := by
  intro s lay hcmd
  rw [← State.finish_eq_endsAs]
  by_cases hrem : s.port.rem < 1
  · rw [serve_of_noTypeByte (fetchWord_noTypeByte hcmd hrem), decodeCommon_eq, if_pos hrem]
  · obtain ⟨i, hi⟩ := exists_encode_eq_layoutWord lay (typeByte s.port)
    have hdecode : decode (.decoder (decoderWord (layoutCode lay) (typeByte s.port))) = .ok i := hi ▸ decodeOfEncode i
    rw [serve_of_word (fetchWord_header hcmd (Nat.not_lt.1 hrem)) hdecode, exec_of_word hi,
      finish_decodeCommon_eq_decodeForm]

end Sys2Proof.Machine
end

section
/-! A frame that passes the marker and reserved checks (41_header_layouts.md R120): DecodeCommon is then its steps 3 to
7, whatever `rem` is. -/

namespace Sys2Proof.Machine

/-- The widths of a well-formed record are at most 8 (30_encoding.md R66). -/
theorem WidthsAre.le_eight {L : LayoutSpec} {t : Byte} {ws wo : Nat} (hw : WidthsAre L t ws wo) (hL : L.wf = true) :
    ws ≤ 8 ∧ wo ≤ 8 := by
  obtain ⟨ws', wo', ⟨hs, ho⟩, hle⟩ := LayoutSpec.wf_widths hL t
  obtain rfl : ws = ws' := Option.some.inj (hw.1.symm.trans hs)
  obtain rfl : wo = wo' := Option.some.inj (hw.2.symm.trans ho)
  exact hle

/-- With a type byte that passes, DECODE is steps 3 to 7 of its layout: with `rem = 0` they too answer TRUNC_HDR. -/
theorem exec_decode_of_typeByteOk {s : State} {v : Version} {lay : Layout} {ws wo : Nat} (hc : s.config.wf = true)
    (hv : Supports s v lay) (hw : WidthsAre (s.config.spec lay) (typeByte s.port) ws wo)
    (hok : TypeByteOk s.config (s.config.spec lay) (typeByte s.port)) :
    exec (.decode v) s = s.finish (decodeFields (s.config.spec lay).order s.port ws wo
      (finFlag (s.config.spec lay) (typeByte s.port)) (dlenFlag (s.config.spec lay) (typeByte s.port))) := by
  obtain ⟨hmarker, hreserved⟩ := typeByteOk_iff.1 hok
  obtain ⟨hs, ho⟩ := hw.le_eight (Config.wf_spec hc lay)
  rw [exec_decode_supported hv, decodeCommon_eq]
  by_cases hrem : s.port.rem < 1
  · rw [if_pos hrem, decodeFields_eq _ _ _ _ _ _ hs ho, if_pos (by unfold headerLength; omega)]
  · rw [if_neg hrem, decodeTyped_eq hw, hmarker, hreserved]
    rfl

/-- A stated length or FIN leaves no ambiguity (R152). -/
theorem not_ambiguous_of_flags {d f : Bool} (h : d = true ∨ f = true) : ¬ (d = false ∧ f = false) := by
  rintro ⟨rfl, rfl⟩
  simp at h

/-- Settles O28: steps 3 to 7 fail only on a header or a payload past `rem` or with `D = 0` and `F = 0`. -/
theorem decodeAcceptsFittingFrame : Obligations.DecodeAcceptsFittingFrame := by
  intro v s lay ws wo hc hv hw hok hflags hhdr hpay
  obtain ⟨hs, ho⟩ := hw.le_eight (Config.wf_spec hc lay)
  rw [exec_decode_of_typeByteOk hc hv hw hok, decodeFields_eq _ _ _ _ _ _ hs ho, if_neg (Nat.not_lt.2 hhdr),
    if_neg (not_ambiguous_of_flags hflags), if_neg fun hlong => Nat.not_lt.2 hpay hlong.2]
  rfl

end Sys2Proof.Machine
end

section
/-! The type byte of the reference encoder (41_header_layouts.md R131): each of its fields lies under a mask of its own,
and the masks of a well-formed record do not meet (30_encoding.md R66), so each is read back as it was written. -/

namespace Sys2Proof.Machine

/-! ### A value placed in a byte -/

/-- The bits of `fieldMask`. -/
theorem fieldMask_getLsbD (lo n i : Nat) :
    (fieldMask lo n).getLsbD i = (decide (i < 8) && (decide (lo ≤ i) && decide (i - lo < n))) := by
  rw [fieldMask, BitVec.getLsbD_ofNat, Nat.testBit_mul_two_pow, Nat.testBit_two_pow_sub_one]

/-- The bits of a value written from bit `lo` on (R131). -/
theorem placed_getLsbD (v lo i : Nat) :
    (BitVec.ofNat 8 v <<< lo).getLsbD i = (decide (i < 8) && (decide (lo ≤ i) && v.testBit (i - lo))) := by
  rw [BitVec.getLsbD_shiftLeft, BitVec.getLsbD_ofNat]
  by_cases hlo : i < lo
  · simp [hlo]
  · by_cases hi : i < 8
    · simp [hlo, hi, show i - lo < 8 by omega, Nat.not_lt.1 hlo]
    · simp [hi]

/-- A value of at most `n` bits stays under its field's mask. -/
theorem placed_and_fieldMask {v n : Nat} (lo : Nat) (hv : v < 2 ^ n) :
    (BitVec.ofNat 8 v <<< lo) &&& fieldMask lo n = BitVec.ofNat 8 v <<< lo := by
  refine BitVec.eq_of_getLsbD_eq fun i _ => ?_
  rw [BitVec.getLsbD_and, placed_getLsbD, fieldMask_getLsbD]
  by_cases hn : i - lo < n
  · cases decide (i < 8) <;> cases decide (lo ≤ i) <;> simp [hn]
  · have hbit : v.testBit (i - lo) = false :=
      Nat.testBit_lt_two_pow (hv.trans_le (Nat.pow_le_pow_right (by omega) (Nat.not_lt.1 hn)))
    simp [hbit]

/-- A byte that shows a placed value under its field's mask has that value's bits there. -/
theorem getLsbD_of_and_fieldMask {t : Byte} {v lo n i : Nat} (ht : t &&& fieldMask lo n = BitVec.ofNat 8 v <<< lo)
    (hi : i < n) (hfit : lo + n ≤ 8) : t.getLsbD (lo + i) = v.testBit i := by
  have hbits := congrArg (fun b => b.getLsbD (lo + i)) ht
  simp only [BitVec.getLsbD_and, placed_getLsbD, fieldMask_getLsbD] at hbits
  simpa [hi, show lo + i < 8 by omega] using hbits

/-- A byte that shows a placed value under its field's mask has that value in the field (00_scope.md R9). -/
theorem bitField_of_and_fieldMask {t : Byte} {v lo n : Nat} (ht : t &&& fieldMask lo n = BitVec.ofNat 8 v <<< lo)
    (hv : v < 2 ^ n) (hfit : lo + n ≤ 8) : bitField t lo n = v := by
  have hfield : t.extractLsb' lo n = BitVec.ofNat n v := by
    refine BitVec.eq_of_getLsbD_eq fun i hi => ?_
    rw [BitVec.getLsbD_extractLsb', BitVec.getLsbD_ofNat, getLsbD_of_and_fieldMask ht hi hfit]
  rw [bitField_eq_toNat, hfield, BitVec.toNat_ofNat, Nat.mod_eq_of_lt hv]

/-! ### Parts under masks that do not meet -/

/-- A part under one mask is not seen through another that does not meet it. -/
theorem and_eq_zero_of_masked {x a b : Byte} (hx : x &&& a = x) (hab : a &&& b = 0#8) : x &&& b = 0#8 := by
  rw [← hx, BitVec.and_assoc, hab, BitVec.and_zero]

/-- The bytes of a list of parts, each given with its mask, put together. -/
def orParts (ps : List (Byte × Byte)) : Byte := ps.foldr (fun p t => p.1 ||| t) 0#8

theorem orParts_cons (p : Byte × Byte) (ps : List (Byte × Byte)) : orParts (p :: ps) = p.1 ||| orParts ps := rfl

/-- A mask that meets none of the parts' masks sees none of them. -/
theorem orParts_and_eq_zero {ps : List (Byte × Byte)} {b : Byte} (hin : ∀ p ∈ ps, p.1 &&& p.2 = p.1)
    (hb : ∀ p ∈ ps, b &&& p.2 = 0#8) : orParts ps &&& b = 0#8 := by
  induction ps with
  | nil => exact BitVec.zero_and
  | cons p ps ih =>
    obtain ⟨hp, hin⟩ := List.forall_mem_cons.1 hin
    obtain ⟨hbp, hb⟩ := List.forall_mem_cons.1 hb
    rw [BitVec.and_comm] at hbp
    rw [orParts_cons, BitVec.and_or_distrib_right, and_eq_zero_of_masked hp hbp, ih hin hb, BitVec.or_zero]

/-- When no two masks meet, each mask shows its own part. -/
theorem orParts_and_eq_part {ps : List (Byte × Byte)} (hin : ∀ p ∈ ps, p.1 &&& p.2 = p.1)
    (hdisjoint : ps.Pairwise fun p q => p.2 &&& q.2 = 0#8) : ∀ p ∈ ps, orParts ps &&& p.2 = p.1 := by
  induction ps with
  | nil => simp
  | cons q ps ih =>
    obtain ⟨hq, hin⟩ := List.forall_mem_cons.1 hin
    obtain ⟨hqps, hps⟩ := List.pairwise_cons.1 hdisjoint
    refine List.forall_mem_cons.2 ⟨?_, fun p hp => ?_⟩
    · rw [orParts_cons, BitVec.and_or_distrib_right, hq, orParts_and_eq_zero hin hqps, BitVec.or_zero]
    · rw [orParts_cons, BitVec.and_or_distrib_right, and_eq_zero_of_masked hq (hqps p hp), ih hin hps p hp,
        BitVec.zero_or]

/-! ### The parts of the type byte -/

/-- The parts of ENC's type byte, each with its mask in the order of `LayoutSpec.masks`; it writes no reserved bit. -/
def encParts (L : LayoutSpec) (ss oo : Nat) (f d : Bool) : List (Byte × Byte) :=
  [(BitVec.ofNat 8 f.toNat <<< (L.finBit : Nat), fieldMask L.finBit 1),
    (BitVec.ofNat 8 d.toNat <<< (L.dlenBit : Nat), fieldMask L.dlenBit 1),
    (BitVec.ofNat 8 ss <<< L.sidLo, fieldMask L.sidLo L.sidN),
    (BitVec.ofNat 8 oo <<< L.offLo, fieldMask L.offLo L.offN), (L.markerVal, L.markerMask), (0#8, L.reservedMask)]

theorem encParts_masks (L : LayoutSpec) (ss oo : Nat) (f d : Bool) :
    (encParts L ss oo f d).map Prod.snd = L.masks := rfl

theorem encTypeByte_eq_orParts (L : LayoutSpec) (ss oo : Nat) (f d : Bool) :
    encTypeByte L ss oo f d = orParts (encParts L ss oo f d) := by
  simp only [encTypeByte, encParts, orParts, List.foldr_cons, List.foldr_nil, BitVec.or_zero]
  ac_rfl

/-- What R66 asks of the fields, the tables and the marker of a record. -/
theorem LayoutSpec.wf_fields {L : LayoutSpec} (h : L.wf = true) :
    L.sidLo + L.sidN ≤ 8 ∧ L.offLo + L.offN ≤ 8 ∧ (L.masks.Pairwise fun a b => a &&& b = 0#8) ∧
      L.sidTab.length = 2 ^ L.sidN ∧ L.offTab.length = 2 ^ L.offN ∧ L.markerVal &&& L.markerMask = L.markerVal := by
  simp only [LayoutSpec.wf, Bool.and_eq_true, decide_eq_true_eq] at h
  obtain ⟨⟨⟨⟨⟨⟨⟨hsid, hoff⟩, hmasks⟩, hsidTab⟩, hoffTab⟩, -⟩, -⟩, hmarker⟩ := h
  exact ⟨hsid, hoff, hmasks, hsidTab, hoffTab, hmarker⟩

/-- A selector with an entry fits its field. -/
theorem lt_of_getElem?_eq_some {tab : List Nat} {k n w : Nat} (hlen : tab.length = 2 ^ n) (hk : tab[k]? = some w) :
    k < 2 ^ n := hlen ▸ (List.getElem?_eq_some_iff.1 hk).1

section
variable {L : LayoutSpec} {ss oo ws wo : Nat} (hL : L.wf = true) (hss : L.sidTab[ss]? = some ws)
  (hoo : L.offTab[oo]? = some wo) (f d : Bool)
include hL hss hoo

/-- Every mask of a well-formed record shows in ENC's type byte what was written under it. -/
theorem encTypeByte_and_mask : ∀ p ∈ encParts L ss oo f d, encTypeByte L ss oo f d &&& p.2 = p.1 := by
  obtain ⟨-, -, hmasks, hsidTab, hoffTab, hmarker⟩ := LayoutSpec.wf_fields hL
  rw [← encParts_masks L ss oo f d, List.pairwise_map] at hmasks
  rw [encTypeByte_eq_orParts]
  refine orParts_and_eq_part ?_ hmasks
  simp only [encParts, List.forall_mem_cons, List.not_mem_nil, false_imp_iff, implies_true, and_true]
  exact ⟨placed_and_fieldMask _ f.toNat_lt, placed_and_fieldMask _ d.toNat_lt,
    placed_and_fieldMask _ (lt_of_getElem?_eq_some hsidTab hss),
    placed_and_fieldMask _ (lt_of_getElem?_eq_some hoffTab hoo), hmarker, BitVec.zero_and⟩

/-- A layout record reads ENC's type byte as it was written: the flags, the widths, the marker and the reserved bits. -/
theorem encTypeByte_reads :
    finFlag L (encTypeByte L ss oo f d) = f ∧ dlenFlag L (encTypeByte L ss oo f d) = d ∧
      WidthsAre L (encTypeByte L ss oo f d) ws wo ∧ ∀ c, TypeByteOk c L (encTypeByte L ss oo f d) := by
  obtain ⟨hsid, hoff, -, hsidTab, hoffTab, -⟩ := LayoutSpec.wf_fields hL
  have hparts := encTypeByte_and_mask hL hss hoo f d
  simp only [encParts, List.forall_mem_cons, List.not_mem_nil, false_imp_iff, implies_true, and_true] at hparts
  obtain ⟨hf, hd, hs, ho, hmarker, hreserved⟩ := hparts
  have hflag (b : Bool) : b.toNat.testBit 0 = b := by cases b <;> rfl
  refine ⟨?_, ?_, ⟨?_, ?_⟩, fun c => ⟨.inr hmarker, .inr hreserved⟩⟩
  · exact (getLsbD_of_and_fieldMask (i := 0) hf Nat.one_pos L.finBit.isLt).trans (hflag f)
  · exact (getLsbD_of_and_fieldMask (i := 0) hd Nat.one_pos L.dlenBit.isLt).trans (hflag d)
  · rw [sidWidth, sidSelector, bitField_of_and_fieldMask hs (lt_of_getElem?_eq_some hsidTab hss) hsid, hss]
  · rw [offWidth, offSelector, bitField_of_and_fieldMask ho (lt_of_getElem?_eq_some hoffTab hoo) hoff, hoo]

end

end Sys2Proof.Machine
end

section
/-! The frame round trip (41_header_layouts.md R132) and the symmetry of the byte orders (R133): what DECODE answers on
a buffer that begins with a header of the reference encoder, as a function in which no byte order occurs. -/

namespace Sys2Proof.Machine

/-! ### The header -/

/-- The bytes of a header (R131). -/
def headerBytes (L : LayoutSpec) (ss oo ws wo : Nat) (f d : Bool) (sid off len : Nat) : List Byte :=
  [encTypeByte L ss oo f d] ++ fieldBytes L.order sid ws ++ fieldBytes L.order off wo ++
    if d then fieldBytes L.order len lengthWidth else []

theorem headerBytes_length (L : LayoutSpec) (ss oo ws wo : Nat) (f d : Bool) (sid off len : Nat) :
    (headerBytes L ss oo ws wo f d sid off len).length = headerLength ws wo d := by
  cases d <;> simp [headerBytes, headerLength] <;> omega

/-- The values of a frame fit their fields (R131): none wider than 8 bytes, each value below `256^width`. -/
def FrameFits (ws wo : Nat) (d : Bool) (sid off len : Nat) : Prop :=
  (ws ≤ 8 ∧ sid < 256 ^ ws) ∧ (wo ≤ 8 ∧ off < 256 ^ wo) ∧ (d = true → len < 256 ^ lengthWidth)

theorem codecWrite_eq_ok_iff {o : ByteOrder} {v n : Nat} {bs : List Byte} :
    codecWrite o v n = .ok bs ↔ (n ≤ 8 ∧ v < 256 ^ n) ∧ bs = fieldBytes o v n := by
  rw [codecWrite_eq]
  split_ifs with hn hv
  · simp [hn]
  · simp [hv]
  · simp [Nat.not_lt.1 hn, Nat.not_le.1 hv, eq_comm]

theorem bind_eq_ok_iff {ε α β : Type} {e : Except ε α} {g : α → Except ε β} {b : β} :
    e.bind g = .ok b ↔ ∃ a, e = .ok a ∧ g a = .ok b := by
  cases e <;> simp [Except.bind]

/-- The length field of ENC, present when `D = 1`. -/
theorem lengthBytes_eq_ok_iff {o : ByteOrder} {len : Nat} {d : Bool} {bs : List Byte} :
    (if d then codecWrite o len lengthWidth else .ok []) = .ok bs ↔
      (d = true → len < 256 ^ lengthWidth) ∧ bs = if d then fieldBytes o len lengthWidth else [] := by
  cases d with
  | false => simp [eq_comm]
  | true => simp [codecWrite_eq_ok_iff, lengthWidth]

/-- ENC answers exactly for selectors with an entry and values that fit. -/
theorem encodeHeader_eq_ok_iff {L : LayoutSpec} {ss oo : Nat} {f d : Bool} {sid off len : Nat} {h : List Byte} :
    encodeHeader L ss oo f d sid off len = .ok h ↔ ∃ ws wo, L.sidTab[ss]? = some ws ∧ L.offTab[oo]? = some wo ∧
      FrameFits ws wo d sid off len ∧ h = headerBytes L ss oo ws wo f d sid off len := by
  unfold encodeHeader
  constructor
  · intro henc
    split at henc
    next ws wo hss hoo =>
      obtain ⟨sidBytes, hsid, henc⟩ := bind_eq_ok_iff.1 henc
      obtain ⟨offBytes, hoff, henc⟩ := bind_eq_ok_iff.1 henc
      obtain ⟨lenBytes, hlen, rfl⟩ := exists_of_map_eq_ok henc
      obtain ⟨hsidFits, rfl⟩ := codecWrite_eq_ok_iff.1 hsid
      obtain ⟨hoffFits, rfl⟩ := codecWrite_eq_ok_iff.1 hoff
      obtain ⟨hlenFits, rfl⟩ := lengthBytes_eq_ok_iff.1 hlen
      exact ⟨ws, wo, hss, hoo, ⟨hsidFits, hoffFits, hlenFits⟩, rfl⟩
    next => cases henc
  · rintro ⟨ws, wo, hss, hoo, ⟨hsid, hoff, hlen⟩, rfl⟩
    rw [hss, hoo]
    simp only
    rw [codecWrite_eq_ok_iff.2 ⟨hsid, rfl⟩, codecWrite_eq_ok_iff.2 ⟨hoff, rfl⟩, lengthBytes_eq_ok_iff.2 ⟨hlen, rfl⟩]
    rfl

/-! ### A buffer that begins with the header -/

/-- A part of the bytes a buffer begins with is read at its place. -/
theorem Memory.beginsWith.readN {m : Memory} {before bs after : List Byte}
    (h : Memory.beginsWith m (before ++ bs ++ after)) : Memory.readN m before.length bs.length = bs := by
  refine List.ext_getElem (Memory.readN_length ..) fun k _ hk => ?_
  rw [Memory.readN_getElem, h (before.length + k) (by simp; omega)]
  simp [hk]

/-- A field written among the bytes a buffer begins with has its value there (R109). -/
theorem Memory.beginsWith.wireValue {m : Memory} {o : ByteOrder} {v n i : Nat} {before after : List Byte}
    (h : Memory.beginsWith m (before ++ fieldBytes o v n ++ after)) (hi : before.length = i) (hv : v < 256 ^ n) :
    wireValue o m i n = v := by
  have hbytes := h.readN
  rw [fieldBytes_length, hi] at hbytes
  rw [← fieldValue_readN, hbytes, fieldValue_fieldBytes o hv]

/-- The length that a frame of ENC states (R150, R151). -/
def statedLength (ws wo : Nat) (d : Bool) (len rem : Nat) : Nat := if d then len else rem - headerLength ws wo d

section
variable {L : LayoutSpec} {ss oo ws wo : Nat} {f d : Bool} {sid off len : Nat} {m : Memory}
  (hbuf : Memory.beginsWith m (headerBytes L ss oo ws wo f d sid off len))
include hbuf

theorem read_zero_of_headerBytes : Memory.read m 0 = encTypeByte L ss oo f d := hbuf 0 (by simp [headerBytes])

theorem wireValue_sid_of_headerBytes (hsid : sid < 256 ^ ws) : wireValue L.order m 1 ws = sid := by
  rw [headerBytes, List.append_assoc] at hbuf
  exact hbuf.wireValue rfl hsid

theorem wireValue_off_of_headerBytes (hoff : off < 256 ^ wo) : wireValue L.order m (1 + ws) wo = off :=
  Memory.beginsWith.wireValue hbuf (by simp [Nat.add_comm]) hoff

/-- The length a header of ENC states. -/
theorem wireLength_of_headerBytes {q : Request} (hq : q.buf = m) (hlen : d = true → len < 256 ^ lengthWidth) :
    wireLength L.order q ws wo d = statedLength ws wo d len q.rem := by
  cases d with
  | false => rfl
  | true =>
    rw [headerBytes, if_pos rfl, ← List.append_nil (_ ++ _)] at hbuf
    simp only [wireLength, hq, if_true]
    exact hbuf.wireValue (by simp; omega) (hlen rfl)

end

/-! ### The response -/

/-- A value that fits a field of at most 8 bytes fits the record's 64 bits. -/
theorem toNat_ofNat_of_lt_pow256 {v n : Nat} (hn : n ≤ 8) (hv : v < 256 ^ n) : (BitVec.ofNat 64 v).toNat = v := by
  rw [BitVec.toNat_ofNat]
  exact Nat.mod_eq_of_lt (hv.trans_le (pow256_le hn))

/-- What DECODE answers on a frame of these widths, flags and values, by the bounds of R152 to R154. -/
def frameResponse (ws wo : Nat) (f d : Bool) (sid off len rem : Nat) : Response :=
  if rem < headerLength ws wo d then .fail .truncHdr
  else if d = false ∧ f = false then .fail .ambigLen
  else if d = true ∧ rem < headerLength ws wo d + statedLength ws wo d len rem then .fail .truncPayload
  else acceptedFrame (BitVec.ofNat 64 sid) (BitVec.ofNat 64 off) (statedLength ws wo d len rem) (headerLength ws wo d) f

/-- A frame whose length is stated or inferable and that fits `rem` is accepted (R120, R127). -/
theorem frameResponse_of_fits {ws wo : Nat} {f d : Bool} {len rem : Nat} (sid off : Nat) (hflags : d = true ∨ f = true)
    (hrem : headerLength ws wo d + (if d then len else 0) ≤ rem) :
    frameResponse ws wo f d sid off len rem = acceptedFrame (BitVec.ofNat 64 sid) (BitVec.ofNat 64 off)
      (statedLength ws wo d len rem) (headerLength ws wo d) f := by
  have hpay : ¬ (d = true ∧ rem < headerLength ws wo d + statedLength ws wo d len rem) := by
    rintro ⟨rfl, hlong⟩
    exact Nat.not_lt.2 hrem hlong
  rw [frameResponse, if_neg (by omega), if_neg (not_ambiguous_of_flags hflags), if_neg hpay]

/-- Steps 3 to 7 on a header of ENC. -/
theorem finish_decodeFields_of_headerBytes {L : LayoutSpec} {ss oo ws wo : Nat} {f d : Bool} {sid off len : Nat}
    {s : State} (hfits : FrameFits ws wo d sid off len)
    (hbuf : Memory.beginsWith s.port.buf (headerBytes L ss oo ws wo f d sid off len)) :
    s.finish (decodeFields L.order s.port ws wo f d) =
      .next (afterResponse s (frameResponse ws wo f d sid off len s.port.rem)) := by
  obtain ⟨⟨hs, hsid⟩, ⟨ho, hoff⟩, hlen⟩ := hfits
  rw [decodeFields_eq _ _ _ _ _ _ hs ho, wireLength_of_headerBytes hbuf rfl hlen, wireFrame,
    wireValue_sid_of_headerBytes hbuf hsid, wireValue_off_of_headerBytes hbuf hoff]
  unfold frameResponse
  split_ifs <;> rfl

/-- DECODE on a buffer that begins with a header of ENC, under any well-formed configuration and any `rem`: the response
does not depend on the byte order. -/
theorem exec_decode_of_headerBytes {s : State} {v : Version} {lay : Layout} {ss oo ws wo : Nat} {f d : Bool}
    {sid off len : Nat} (hc : s.config.wf = true) (hv : Supports s v lay)
    (hss : (s.config.spec lay).sidTab[ss]? = some ws) (hoo : (s.config.spec lay).offTab[oo]? = some wo)
    (hfits : FrameFits ws wo d sid off len)
    (hbuf : Memory.beginsWith s.port.buf (headerBytes (s.config.spec lay) ss oo ws wo f d sid off len)) :
    exec (.decode v) s = .next (afterResponse s (frameResponse ws wo f d sid off len s.port.rem)) := by
  obtain ⟨hf, hd, hw, hok⟩ := encTypeByte_reads (Config.wf_spec hc lay) hss hoo f d
  have htype : typeByte s.port = encTypeByte (s.config.spec lay) ss oo f d := read_zero_of_headerBytes hbuf
  rw [← htype] at hf hd hw hok
  rw [exec_decode_of_typeByteOk hc hv hw (hok s.config), hf, hd, finish_decodeFields_of_headerBytes hfits hbuf]

/-- Settles O40: ENC's header is read back field by field, and the frame it begins fits `rem`. -/
theorem frameRoundTrip : Obligations.FrameRoundTrip := by
  intro c lay ss oo f d sid off len ws wo hc hss hoo hsid hoff hlen hflags
  obtain ⟨-, -, hw, -⟩ := encTypeByte_reads (Config.wf_spec hc lay) hss hoo f d
  obtain ⟨hs, ho⟩ := hw.le_eight (Config.wf_spec hc lay)
  have hfits : FrameFits ws wo d sid off len := ⟨⟨hs, hsid⟩, ⟨ho, hoff⟩, fun _ => hlen⟩
  refine ⟨_, encodeHeader_eq_ok_iff.2 ⟨ws, wo, hss, hoo, hfits, rfl⟩, ?_⟩
  rintro v s rfl hv hbuf hrem
  rw [headerBytes_length] at hrem ⊢
  have hexec := exec_decode_of_headerBytes hc hv hss hoo hfits hbuf
  rw [frameResponse_of_fits sid off hflags hrem, acceptedFrame] at hexec
  exact ⟨_, _, hexec, toNat_ofNat_of_lt_pow256 hs hsid, toNat_ofNat_of_lt_pow256 ho hoff, rfl, rfl⟩

/-- Settles O41: both headers hold the same values in the same widths, so both answers are the same `frameResponse`. -/
theorem byteOrderSymmetry : Obligations.ByteOrderSymmetry := by
  intro s v w ss oo f d sid off len h k m n hc _ hbe hv hw hle hbeEnc hm hn
  obtain ⟨ws, wo, hss, hoo, hfits, rfl⟩ := encodeHeader_eq_ok_iff.1 hle
  obtain ⟨ws', wo', hss', hoo', -, rfl⟩ := encodeHeader_eq_ok_iff.1 hbeEnc
  have hsidTab : s.config.lbe.sidTab = s.config.lle.sidTab := by rw [hbe]
  have hoffTab : s.config.lbe.offTab = s.config.lle.offTab := by rw [hbe]
  obtain rfl : ws' = ws := Option.some.inj (hss'.symm.trans (hsidTab ▸ hss))
  obtain rfl : wo' = wo := Option.some.inj (hoo'.symm.trans (hoffTab ▸ hoo))
  exact ⟨_, exec_decode_of_headerBytes (s := s.withBuf m) hc (hv.withBuf m) hss hoo hfits hm,
    exec_decode_of_headerBytes (s := s.withBuf n) hc (hw.withBuf n) hss' hoo' hfits hn⟩

end Sys2Proof.Machine
end

section
/-! The outcome of DECODE in the order of its causes (60_exceptions.md R204): the table first, then the layout decoder,
whose per-field checks are the single header check of 42_length_and_bounds.md R160. -/

namespace Sys2Proof.Machine

/-! ### The table -/

/-- What SEL raises ends a DECODE before a buffer byte is read (43_dispatch.md R174). -/
theorem exec_decode_of_selectLayout_error {s : State} {v : Version} {e : Ending} (h : selectLayout s v = .error e) :
    exec (.decode v) s = s.finish (.error e) := by
  show s.finish _ = _
  rw [h]
  rfl

theorem selectLayout_not_ready {s : State} (v : Version) (h : s.tableReady = false) :
    selectLayout s v = .error (.raise .notInitialised) := if_pos h

theorem selectLayout_no_entry {s : State} {v : Version} (hready : s.tableReady = true)
    (hentry : Table.lookup s.dt v = none) : selectLayout s v = .error (.raise (.unsupportedVersion v)) := by
  simp [selectLayout, hready, hentry]

theorem selectLayout_entry {s : State} {v : Version} {code : BitVec 2} (hready : s.tableReady = true)
    (hentry : Table.lookup s.dt v = some code) : selectLayout s v = .ok code := by
  simp [selectLayout, hready, hentry]

theorem exec_decode_not_ready {s : State} (v : Version) (h : s.tableReady = false) :
    exec (.decode v) s = .next (afterFault s .notInitialised) :=
  exec_decode_of_selectLayout_error (selectLayout_not_ready v h)

theorem exec_decode_no_entry {s : State} {v : Version} (hready : s.tableReady = true)
    (hentry : Table.lookup s.dt v = none) : exec (.decode v) s = .next (afterFault s (.unsupportedVersion v)) :=
  exec_decode_of_selectLayout_error (selectLayout_no_entry hready hentry)

/-- The reserved code in the table ends a DECODE whatever `rem` is (30_encoding.md R76). -/
theorem exec_decode_reserved {s : State} {v : Version} (hready : s.tableReady = true)
    (hentry : Table.lookup s.dt v = some 0b11) : exec (.decode v) s = .next (afterFault s .badLayout) := by
  show s.finish _ = _
  rw [selectLayout_entry hready hentry]
  rfl

/-! ### The layout decoder -/

/-- DecodeCommon takes its causes in the order of R204: its checks are those of `prioritised`, one by one. -/
theorem decodeCommon_eq_prioritised (c : Config) {L : LayoutSpec} {q : Request} {ws wo : Nat} (hL : L.wf = true)
    (hw : WidthsAre L (typeByte q) ws wo) : decodeCommon c L q = prioritised c L q ws wo := by
  obtain ⟨hs, ho⟩ := hw.le_eight hL
  rw [decodeCommon_eq, decodeTyped_eq hw, decodeFields_eq _ _ _ _ _ _ hs ho]
  simp only [prioritised, markerFaults_iff, reservedFaults_iff, Nat.lt_one_iff]

/-- Settles O27: SEL's three ways to fail come first, and for a layout's code DECODE is DecodeCommon, which is
`prioritised`. -/
theorem decodeOutcomePriority : Obligations.DecodeOutcomePriority := by
  intro v s hc
  refine ⟨exec_decode_not_ready v, exec_decode_no_entry, exec_decode_reserved, fun lay hv => ?_⟩
  obtain ⟨ws, wo, hw, -⟩ := LayoutSpec.wf_widths (Config.wf_spec hc lay) (typeByte s.port)
  refine ⟨ws, wo, hw, ?_⟩
  rw [exec_decode_supported hv, State.finish_eq_endsAs, decodeCommon_eq_prioritised _ (Config.wf_spec hc lay) hw]

/-- Settles O11: a layout's code without a type byte forms no word, and serving it answers TRUNC_HDR. -/
theorem stepWithoutTypeByteFails : Obligations.StepWithoutTypeByteFails := by
  intro s lay hcmd hrem
  rw [step, serve_of_noTypeByte (fetchWord_noTypeByte hcmd (Nat.lt_one_iff.2 hrem))]
  rfl

end Sys2Proof.Machine
end

section
/-! The bounds on a header and its payload (42_length_and_bounds.md R153 to R156). -/

namespace Sys2Proof.Machine

/-! ### The header bound -/

theorem exec_decode_no_type_byte {s : State} {v : Version} {lay : Layout} (hv : Supports s v lay)
    (hrem : s.port.rem < 1) : exec (.decode v) s = .next (afterResponse s (.fail .truncHdr)) := by
  rw [exec_decode_supported hv, decodeCommon_eq, if_pos hrem]
  rfl

/-- A field that ends past `rem` makes the header longer than `rem` (R160). -/
theorem lt_headerLength_of_field_past {rem ws wo : Nat} {d : Bool}
    (h : 1 + ws > rem ∨ 1 + ws + wo > rem ∨ (d = true ∧ 1 + ws + wo + 2 > rem)) : rem < headerLength ws wo d := by
  have hfields : 1 + ws + wo ≤ headerLength ws wo d := Nat.le_add_right _ _
  rcases h with hsid | hoff | ⟨rfl, hlen⟩
  · omega
  · omega
  · exact hlen

/-- Settles O32: without a type byte DecodeCommon fails at once, and a field past `rem` fails the header check. -/
theorem truncatedHeaderFails : Obligations.TruncatedHeaderFails := by
  intro v s lay ws wo hc hv
  refine ⟨exec_decode_no_type_byte hv, fun _ hw hok hpast => ?_⟩
  obtain ⟨hs, ho⟩ := hw.le_eight (Config.wf_spec hc lay)
  rw [exec_decode_of_typeByteOk hc hv hw hok, decodeFields_eq _ _ _ _ _ _ hs ho,
    if_pos (lt_headerLength_of_field_past hpast)]
  rfl

/-! ### The payload bound -/

theorem headerLength_explicit (ws wo : Nat) : headerLength ws wo true = 3 + ws + wo := by
  simp only [headerLength, lengthWidth, if_true]
  omega

/-- DECODE on a header with an explicit length that fits `rem`: the payload bound alone decides (R153). -/
theorem exec_decode_explicit {s : State} {v : Version} {lay : Layout} {ws wo dl : Nat} (hc : s.config.wf = true)
    (hv : Supports s v lay) (hw : WidthsAre (s.config.spec lay) (typeByte s.port) ws wo)
    (hok : TypeByteOk s.config (s.config.spec lay) (typeByte s.port))
    (hd : dlenFlag (s.config.spec lay) (typeByte s.port) = true) (hhdr : 3 + ws + wo ≤ s.port.rem)
    (hdl : wireValue (s.config.spec lay).order s.port.buf (1 + ws + wo) 2 = dl) :
    exec (.decode v) s = .next (afterResponse s (if s.port.rem < 3 + ws + wo + dl then .fail .truncPayload
      else .ok (wireFrame (s.config.spec lay).order s.port.buf ws wo dl
        (finFlag (s.config.spec lay) (typeByte s.port))) (3 + ws + wo + dl))) := by
  obtain ⟨hs, ho⟩ := hw.le_eight (Config.wf_spec hc lay)
  have hlength : wireLength (s.config.spec lay).order s.port ws wo true = dl := hdl
  rw [exec_decode_of_typeByteOk hc hv hw hok, hd, decodeFields_eq _ _ _ _ _ _ hs ho, hlength, headerLength_explicit,
    if_neg (Nat.not_lt.2 hhdr), if_neg (not_ambiguous_of_flags (.inl rfl))]
  simp only [true_and]
  split_ifs <;> rfl

/-- Settles O33: the payload bound is the only check left, and it fails. -/
theorem truncatedPayloadFails : Obligations.TruncatedPayloadFails := by
  intro v s lay ws wo hc hv hw hok hd hhdr hlong
  rw [exec_decode_explicit hc hv hw hok hd hhdr rfl, if_pos hlong]

/-! ### A length written in its field -/

/-- Bytes written at an index are read back there. -/
theorem Memory.readN_writeN {m : Memory} (h : Memory.wf m = true) (i : Nat) (bs : List Byte) :
    Memory.readN (Memory.writeN m i bs) i bs.length = bs := by
  refine List.ext_getElem (Memory.readN_length ..) fun k _ hk => ?_
  rw [Memory.readN_getElem, Memory.read_writeN h, if_pos (by omega), Nat.add_sub_cancel_left,
    List.getD_eq_getElem _ _ hk]

/-- A field written on the wire has the value written (40_field_width_codec.md R109). -/
theorem wireValue_writeN_fieldBytes (o : ByteOrder) {m : Memory} (h : Memory.wf m = true) (i : Nat) {v n : Nat}
    (hv : v < 256 ^ n) : wireValue o (Memory.writeN m i (fieldBytes o v n)) i n = v := by
  have hbytes := Memory.readN_writeN h i (fieldBytes o v n)
  rw [fieldBytes_length] at hbytes
  rw [← fieldValue_readN, hbytes, fieldValue_fieldBytes o hv]

/-- Bytes written from an index on leave those below it. -/
theorem Memory.agreeBelow_writeN {m : Memory} (h : Memory.wf m = true) (i : Nat) (bs : List Byte) :
    Memory.AgreeBelow i (Memory.writeN m i bs) m := fun a ha => by
  rw [Memory.read_writeN h, if_neg (by omega)]

/-- The record of a frame depends on the bytes before its length field only. -/
theorem wireFrame_congr (o : ByteOrder) {m m' : Memory} {ws wo : Nat} (dl : Nat) (f : Bool)
    (h : Memory.AgreeBelow (1 + ws + wo) m m') : wireFrame o m ws wo dl f = wireFrame o m' ws wo dl f := by
  rw [wireFrame, wireFrame, wireValue_congr o (h.mono (by omega)), wireValue_congr o h]

/-- Settles O34: writing the length keeps the header's other bytes, so the payload bound is on the length written. -/
theorem payloadBoundaryIsExact : Obligations.PayloadBoundaryIsExact := by
  rintro v s lay ws wo dl hc hv hwf hw hok hd hhdr hdl m rfl
  have hdl : dl < 256 ^ 2 := hdl
  have hbelow := Memory.agreeBelow_writeN hwf (1 + ws + wo) (fieldBytes (s.config.spec lay).order dl 2)
  have hvalue := wireValue_writeN_fieldBytes (s.config.spec lay).order hwf (1 + ws + wo) hdl
  generalize Memory.writeN s.port.buf (1 + ws + wo) (fieldBytes (s.config.spec lay).order dl 2) = m at hbelow hvalue ⊢
  have htype : typeByte (s.withBuf m).port = typeByte s.port := hbelow 0 (by omega)
  rw [← htype] at hw hok hd ⊢
  rw [exec_decode_explicit (s := s.withBuf m) hc (hv.withBuf m) hw hok hd hhdr hvalue, State.withBuf_rem,
    State.withBuf_buf, State.withBuf_config, wireFrame_congr _ _ _ hbelow]
  refine ⟨fun hfits => ?_, fun hlong => ?_⟩
  · rw [if_neg (by omega)]
  · rw [if_pos (by omega)]

end Sys2Proof.Machine
end

section
/-! A frame without an explicit length (42_length_and_bounds.md R151, R152, R155), and the three invariants of an
accepted frame (10_state.md R26), under any configuration. -/

namespace Sys2Proof.Machine

/-- Steps 3 to 7 with `D = 0`, for any widths: a frame is accepted only with FIN, and none fails on its payload. -/
theorem decodeFields_inferred_cases (o : ByteOrder) (q : Request) (ws wo : Nat) (f : Bool) :
    (f = true ∧ ∃ r n, decodeFields o q ws wo f false = .ok (.ok r n)) ∨
      ∃ e, decodeFields o q ws wo f false = .error e ∧ e ≠ .fail .truncPayload := by
  by_cases hw : ws ≤ 8 ∧ wo ≤ 8
  · rw [decodeFields_eq o q ws wo f false hw.1 hw.2]
    by_cases hhdr : q.rem < headerLength ws wo false
    · exact .inr ⟨.fail .truncHdr, if_pos hhdr, by decide⟩
    · rw [if_neg hhdr]
      cases f with
      | false => exact .inr ⟨.fail .ambigLen, rfl, by decide⟩
      | true => exact .inl ⟨rfl, _, _, rfl⟩
  · rw [decodeFields_bad o q ws wo f false (by omega)]
    right
    split_ifs <;> exact ⟨_, rfl, by simp⟩

/-- A request that ends otherwise than with a failure does not answer it (60_exceptions.md R200). -/
theorem answerOf_error_ne {e : Ending} {k : FailKind} (h : e ≠ .fail k) :
    answerOf (.error e) ≠ some (.fail k) := by
  cases e with
  | fail k' => simpa [answerOf] using h
  | raise f => simp [answerOf]
  | stop f => simp [answerOf]

theorem State.response_of_finish {s t : State} {e : Except Ending Response} (h : s.finish e = .next t) :
    t.response = answerOf e := by
  rw [State.eq_of_finish h]

/-- A type byte with `D = 0` never ends its request with TRUNC_PAYLOAD (R155). -/
theorem decodeTyped_inferred_answer_ne {c : Config} {L : LayoutSpec} {t : Byte} (q : Request)
    (hd : dlenFlag L t = false) : answerOf (decodeTyped c L t q) ≠ some (.fail .truncPayload) := by
  unfold decodeTyped
  split_ifs
  · exact answerOf_error_ne (by simp)
  · exact answerOf_error_ne (by simp)
  · split
    next ws wo _ _ =>
      rw [hd]
      rcases decodeFields_inferred_cases L.order q ws wo (finFlag L t) with ⟨-, r, n, hok⟩ | ⟨e, herr, hne⟩
      · simp [hok, answerOf]
      · exact herr ▸ answerOf_error_ne hne
    next => exact answerOf_error_ne (by simp)

/-- Settles O35: the response of a DECODE is what DecodeCommon answers on the type byte, or TRUNC_HDR without one. -/
theorem inferredLengthNeverTruncates : Obligations.InferredLengthNeverTruncates := by
  intro v s t lay hv hd ht
  rw [exec_decode_supported hv, decodeCommon_eq] at ht
  rw [State.response_of_finish ht]
  split_ifs
  · exact answerOf_error_ne (by decide)
  · exact decodeTyped_inferred_answer_ne s.port hd

/-- A type byte with `D = 0` whose frame is accepted has FIN set (R152). -/
theorem finFlag_of_decodeTyped_ok {c : Config} {L : LayoutSpec} {t : Byte} {q : Request} {ws wo : Nat} {r : Response}
    (hw : WidthsAre L t ws wo) (h : decodeTyped c L t q = .ok r) (hd : dlenFlag L t = false) : finFlag L t = true := by
  rw [decodeTyped_eq hw, hd] at h
  split_ifs at h
  rcases decodeFields_inferred_cases L.order q ws wo (finFlag L t) with ⟨hf, -⟩ | ⟨e, herr, -⟩
  · exact hf
  · rw [herr] at h
    cases h

/-- An accepted frame of a decoder-word form or of DECODE was accepted past its type byte. -/
theorem decodeTyped_of_exec_ok {s t : State} {lay : Layout} {b : Byte} {i : Instr} {r : FrameRecord} {n : Nat}
    (hi : encode i = .decoder (decoderWord (layoutCode lay) b) ∨
      ∃ v, i = .decode v ∧ Supports s v lay ∧ b = typeByte s.port)
    (ht : exec i s = .next t) (hr : t.response = some (.ok r n)) :
    decodeTyped s.config (s.config.spec lay) b s.port = .ok (.ok r n) := by
  rcases hi with hword | ⟨v, rfl, hv, rfl⟩
  · rw [exec_of_word hword, decodeForm_eq] at ht
    have hend := State.ok_of_finish_ok ht hr
    split_ifs at hend
    exact hend
  · rw [exec_decode_supported hv] at ht
    exact decodeTyped_of_decodeCommon_ok (State.ok_of_finish_ok ht hr)

/-- Settles O37: an accepted frame ends within `rem`, and with `D = 0` only a frame with FIN is accepted. -/
theorem okResponseInvariants : Obligations.OkResponseInvariants := by
  intro s t lay b ws wo i r n hi hw ht hr
  have hok := decodeTyped_of_exec_ok hi ht hr
  obtain ⟨ws', wo', dl, hw', hframe, hfit⟩ := decodeTyped_ok hok
  obtain rfl : ws' = ws := Option.some.inj (hw'.1.symm.trans hw.1)
  obtain rfl : wo' = wo := Option.some.inj (hw'.2.symm.trans hw.2)
  obtain ⟨rfl, rfl⟩ := Response.ok.inj hframe
  exact ⟨Nat.le_sub_of_add_le' hfit, finFlag_of_decodeTyped_ok hw hok, rfl, hfit⟩

end Sys2Proof.Machine
end

section
/-! TBL.INIT builds the dispatch table, and nothing writes it afterwards (43_dispatch.md R172, R173). -/

namespace Sys2Proof.Machine

/-! ### The table TBL.INIT builds -/

/-- The last entry of `DISPATCH` is the last one set. -/
@[simp] theorem Table.build_concat (d : List (Version × Layout)) (p : Version × Layout) :
    Table.build (d ++ [p]) = Table.set (Table.build d) p.1 (layoutCode p.2) := by
  simp [Table.build]

theorem Table.lookup_build_of_not_mem {d : List (Version × Layout)} {v : Version} (hv : v ∉ d.map Prod.fst) :
    Table.lookup (Table.build d) v = none := by
  induction d using List.reverseRecOn with
  | nil => rfl
  | append_singleton d p ih =>
    rw [List.map_append, List.mem_append, not_or] at hv
    obtain ⟨hd, hp⟩ := hv
    have hne : v ≠ p.1 := fun h => hp (List.mem_singleton.2 h)
    rw [Table.build_concat, Table.lookup_set, if_neg hne, ih hd]

/-- A `DISPATCH` that lists no token twice is found entry by entry: a later entry is another token's. -/
theorem Table.lookup_build_of_mem {d : List (Version × Layout)} {v : Version} {lay : Layout}
    (hd : (d.map Prod.fst).Nodup) (hv : (v, lay) ∈ d) : Table.lookup (Table.build d) v = some (layoutCode lay) := by
  induction d using List.reverseRecOn with
  | nil => cases hv
  | append_singleton d p ih =>
    rw [List.map_append, List.nodup_append] at hd
    obtain ⟨hnodup, -, hdisjoint⟩ := hd
    rw [Table.build_concat, Table.lookup_set]
    rcases List.mem_append.1 hv with hmem | hlast
    · have hne : v ≠ p.1 := hdisjoint v (List.mem_map_of_mem hmem) p.1 (List.mem_singleton.2 rfl)
      rw [if_neg hne, ih hnodup hmem]
    · obtain rfl := List.mem_singleton.1 hlast
      exact if_pos rfl

/-! ### TBL.INIT -/

/-- A second TBL.INIT (R173). -/
theorem exec_tblInit_locked (d : List (Version × Layout)) {s : State} (h : s.tableReady = true) :
    exec (.tblInit d) s = .next (s.raiseFault .tableLocked) :=
  exec_eq_finish _ s (.inr h)

/-- Settles O22: a first TBL.INIT sets the table it builds, a second one only records its fault. -/
theorem tblInitBuildsDispatch : Obligations.TblInitBuildsDispatch := by
  refine fun d s => ⟨fun hready hd => ?_, fun hready => ⟨_, exec_tblInit_locked d hready, rfl, rfl, hready⟩⟩
  have hnodup : (d.map Prod.fst).Nodup := of_decide_eq_true (Bool.and_eq_true_iff.1 hd).1
  refine ⟨_, exec_tblInit_first d s hready, rfl, fun v lay hv => Table.lookup_build_of_mem hnodup hv,
    fun v hv => Table.lookup_build_of_not_mem fun hkey => ?_, rfl, rfl, rfl, rfl⟩
  obtain ⟨⟨_, lay⟩, hmem, rfl⟩ := List.mem_map.1 hkey
  exact hv lay hmem

/-- Settles O20: `setTable` and `raiseFault` keep the parameters, the port and the waiting requests. -/
theorem frameOfTblInit : Obligations.FrameOfTblInit := by
  intro d s t h
  cases hready : s.tableReady with
  | false =>
    rw [exec_tblInit_first d s hready] at h
    obtain rfl := Host.Outcome.next.inj h
    exact ⟨rfl, rfl, rfl, rfl, fun _ => rfl, fun _ => rfl, fun _ => rfl, nofun⟩
  | true =>
    rw [exec_tblInit_locked d hready] at h
    obtain rfl := Host.Outcome.next.inj h
    exact ⟨rfl, rfl, rfl, rfl, fun _ => rfl, fun _ => rfl, nofun, fun _ => ⟨rfl, hready, rfl⟩⟩

/-! ### Nothing else writes the table -/

/-- An instruction other than a first TBL.INIT leaves the table and its flag. -/
theorem exec_keeps_table {i : Instr} {s t : State} (hi : (∀ d, i ≠ .tblInit d) ∨ s.tableReady = true)
    (h : exec i s = .next t) : t.dt = s.dt ∧ t.tableReady = s.tableReady := by
  rw [exec_eq_finish i s hi] at h
  obtain rfl := State.eq_of_finish h
  exact ⟨rfl, rfl⟩

theorem step_keeps_ready_table {s t : State} (hready : s.tableReady = true) (h : step s = .next t) :
    t.dt = s.dt ∧ t.tableReady = true := by
  obtain ⟨u, hserve, rfl⟩ := step_eq_next h
  rw [State.retire_dt, State.retire_tableReady]
  rcases serve_cases hserve with rfl | rfl | ⟨w, i, -, -, hexec⟩
  · exact ⟨rfl, hready⟩
  · exact ⟨rfl, hready⟩
  · exact hready ▸ exec_keeps_table (.inr hready) hexec

/-- What every step of a machine keeps, every run keeps. -/
theorem run_keeps {M : Host.Core} {P : M.State → Prop} (hstep : ∀ s t, P s → M.step s = .next t → P t) {k : Nat}
    {s t : M.State} (hs : P s) (h : M.run k s = .next t) : P t := by
  induction k generalizing s with
  | zero =>
    obtain rfl := Host.Outcome.next.inj h
    exact hs
  | succ k ih =>
    unfold Host.Core.run at h
    split at h
    next u hu => exact ih (hstep s u hs hu) h
    next => cases h
    next => cases h

/-- Settles O5: once ready the table is kept by each step, so by each run; a TBL.INIT then only records its fault. -/
theorem tableNeverChangesOnceReady : Obligations.TableNeverChangesOnceReady := by
  refine ⟨fun k s t hready hrun => ?_, fun d s hready => ⟨_, exec_tblInit_locked d hready, rfl, rfl, hready⟩,
    fun i s t hi h => exec_keeps_table (.inl hi) h⟩
  refine run_keeps (M := Sys2Proof.core) (P := fun u => u.dt = s.dt ∧ u.tableReady = true) ?_ ⟨rfl, hready⟩ hrun
  rintro u w ⟨hdt, hu⟩ hw
  obtain ⟨hwdt, hwready⟩ := step_keeps_ready_table hu hw
  exact ⟨hwdt.trans hdt, hwready⟩

end Sys2Proof.Machine
end

section
/-! Power-on reset (70_reset_and_hazards.md R230): what it clears. -/

namespace Sys2Proof.Machine

/-- Reset leaves nothing to serve and nothing to answer, whatever the parameters and the contents of `DT`. -/
theorem State.resetWith_cleared (c : Config) (dt : Table) :
    (State.resetWith c dt).tableReady = false ∧ (State.resetWith c dt).port.command = none ∧
      (State.resetWith c dt).waiting = [] ∧ (State.resetWith c dt).response = none :=
  ⟨rfl, rfl, rfl, rfl⟩

/-- Settles O1: power-on reset differs from `State.resetWith` of the machine's own parameters only in the recorded faults. -/
theorem powerOnResetClearsReadyAndRequests : Obligations.PowerOnResetClearsReadyAndRequests :=
  ⟨fun s dt => State.resetWith_cleared s.config dt, State.resetWith_cleared defaultConfig []⟩

end Sys2Proof.Machine
end

section
/-! The record of model faults (60_exceptions.md R201) along a run, and the step without a request (R214). -/

namespace Sys2Proof.Machine

/-- An instruction adds at most one fault, in front of those recorded. -/
theorem exec_keeps_faults {i : Instr} {s t : State} (h : exec i s = .next t) : s.faults <:+ t.faults := by
  rcases exec_cases h with ⟨r, rfl⟩ | ⟨f, rfl⟩ | ⟨d, -, -, rfl⟩
  · exact List.suffix_rfl
  · exact List.suffix_cons f s.faults
  · exact List.suffix_rfl

theorem step_keeps_faults {s t : State} (h : step s = .next t) : s.faults <:+ t.faults := by
  obtain ⟨u, hserve, rfl⟩ := step_eq_next h
  rw [State.retire_faults]
  rcases serve_cases hserve with rfl | rfl | ⟨w, i, -, -, hexec⟩
  · exact List.suffix_rfl
  · exact List.suffix_rfl
  · exact exec_keeps_faults hexec

/-- Settles O6: each step keeps the recorded faults as a suffix, so each run does. -/
theorem recordedFaultsNeverCleared : Obligations.RecordedFaultsNeverCleared := by
  intro k s t hrun
  refine run_keeps (M := Sys2Proof.core) (P := fun u => s.faults <:+ u.faults) ?_ List.suffix_rfl hrun
  exact fun u w hu hw => hu.trans (step_keeps_faults hw)

/-- Settles O10: an undriven port serves nothing, and retiring it takes the command that is not there. -/
theorem idleStepChangesNothing : Obligations.IdleStepChangesNothing := by
  intro s hcmd hwait
  rw [step, serve_of_idle hcmd, retireNext, State.retire_of_none_waiting hwait, ← hcmd]

end Sys2Proof.Machine
end

section
/-! A lookup before TBL.INIT, without an entry, and of the reserved code (43_dispatch.md R170, R171, R176;
30_encoding.md R76): SEL and DECODE end in the way `selectLayout` says. -/

namespace Sys2Proof.Machine

/-- SEL answers what `selectLayout` finds (R170). -/
theorem exec_sel_eq_finish (v : Version) (s : State) :
    exec (.sel v) s = s.finish ((selectLayout s v).map .layout) := rfl

theorem exec_sel_not_ready {s : State} (v : Version) (h : s.tableReady = false) :
    exec (.sel v) s = .next (afterFault s .notInitialised) := by
  rw [exec_sel_eq_finish, selectLayout_not_ready v h]
  rfl

theorem exec_sel_no_entry {s : State} {v : Version} (hready : s.tableReady = true)
    (hentry : Table.lookup s.dt v = none) : exec (.sel v) s = .next (afterFault s (.unsupportedVersion v)) := by
  rw [exec_sel_eq_finish, selectLayout_no_entry hready hentry]
  rfl

theorem exec_sel_entry {s : State} {v : Version} {code : BitVec 2} (hready : s.tableReady = true)
    (hentry : Table.lookup s.dt v = some code) : exec (.sel v) s = .next (afterResponse s (.layout code)) := by
  rw [exec_sel_eq_finish, selectLayout_entry hready hentry]
  rfl

/-- Settles O21, one lemma for each of SEL's outcomes. -/
theorem selReturnsTheEntry : Obligations.SelReturnsTheEntry :=
  fun v _ => ⟨exec_sel_not_ready v, exec_sel_no_entry, fun _ => exec_sel_entry⟩

/-- Settles O23: both look the version up first. -/
theorem lookupsBeforeInitFault : Obligations.LookupsBeforeInitFault :=
  fun v _ hready => ⟨exec_sel_not_ready v hready, exec_decode_not_ready v hready⟩

/-- Settles O24: both look the version up before `rem` or the buffer is looked at. -/
theorem unsupportedVersionFaults : Obligations.UnsupportedVersionFaults :=
  fun _ _ hready hentry => ⟨exec_decode_no_entry hready hentry, exec_sel_no_entry hready hentry⟩

/-- The reserved code as a decoder word (R76). -/
theorem exec_rsvLayout3 (x : BitVec 8) (s : State) : exec (.rsvLayout3 x) s = .next (afterFault s .badLayout) := rfl

/-- Settles O26, for the word and for the table entry. -/
theorem reservedLayoutFaults : Obligations.ReservedLayoutFaults :=
  ⟨exec_rsvLayout3, fun _ _ => exec_decode_reserved⟩

end Sys2Proof.Machine
end

section
/-! The length of a frame under the default layout records (42_length_and_bounds.md R150 to R152): a decoder-word form
whose type byte passes its checks runs steps 3 to 7 (41_header_layouts.md R120), whose length is explicit, inferred or
ambiguous by the flags `D` and `F`. -/

namespace Sys2Proof.Machine

/-! ### A form under a well-formed record -/

section
variable {s : State} {lay : Layout} {L : LayoutSpec} {t : Byte} {ws wo : Nat}
variable (hspec : s.config.spec lay = L) (hL : L.wf = true) (hw : WidthsAre L t ws wo) (hok : TypeByteOk s.config L t)
include hspec hL hw hok

/-- A form with a type byte that passes is steps 3 to 7 of its layout: with `rem = 0` they too answer TRUNC_HDR. -/
theorem decodeForm_of_typeByteOk :
    decodeForm lay t s = s.finish (decodeFields L.order s.port ws wo (finFlag L t) (dlenFlag L t)) := by
  obtain ⟨hmarker, hreserved⟩ := typeByteOk_iff.1 hok
  obtain ⟨hs, ho⟩ := hw.le_eight hL
  rw [decodeForm_eq, hspec]
  by_cases hrem : s.port.rem < 1
  · rw [if_pos hrem, decodeFields_eq _ _ _ _ _ _ hs ho, if_pos (by unfold headerLength; omega)]
  · rw [if_neg hrem, decodeTyped_eq hw, hmarker, hreserved]
    rfl

/-- With `D = 1` the length is the explicit field's, whatever FIN is (R150). -/
theorem decodeForm_explicit {f : Bool} (hd : dlenFlag L t = true) (hf : finFlag L t = f)
    (hfits : 3 + ws + wo + wireValue L.order s.port.buf (1 + ws + wo) 2 ≤ s.port.rem) :
    decodeForm lay t s = .next (afterResponse s (.ok
      (wireFrame L.order s.port.buf ws wo (wireValue L.order s.port.buf (1 + ws + wo) 2) f)
      (3 + ws + wo + wireValue L.order s.port.buf (1 + ws + wo) 2))) := by
  obtain ⟨hs, ho⟩ := hw.le_eight hL
  have hlength : wireLength L.order s.port ws wo true = wireValue L.order s.port.buf (1 + ws + wo) 2 := rfl
  rw [decodeForm_of_typeByteOk hspec hL hw hok, hd, hf, decodeFields_eq _ _ _ _ _ _ hs ho, hlength,
    headerLength_explicit, if_neg (by omega), if_neg (not_ambiguous_of_flags (.inl rfl)), if_neg (by omega)]
  rfl

/-- With `D = 0` and FIN the length is what is left of `rem` (R151). -/
theorem decodeForm_inferred (hd : dlenFlag L t = false) (hf : finFlag L t = true) (hhdr : 1 + ws + wo ≤ s.port.rem) :
    decodeForm lay t s = .next (afterResponse s (.ok
      (wireFrame L.order s.port.buf ws wo (s.port.rem - (1 + ws + wo)) true) s.port.rem)) := by
  obtain ⟨hs, ho⟩ := hw.le_eight hL
  have hheader : headerLength ws wo false = 1 + ws + wo := rfl
  have hlength : wireLength L.order s.port ws wo false = s.port.rem - (1 + ws + wo) := rfl
  rw [decodeForm_of_typeByteOk hspec hL hw hok, hd, hf, decodeFields_eq _ _ _ _ _ _ hs ho, hlength, hheader,
    if_neg (Nat.not_lt.2 hhdr), if_neg (not_ambiguous_of_flags (.inr rfl)), if_neg (by simp),
    Nat.add_sub_of_le hhdr]
  rfl

/-- With `D = 0` and no FIN the length is ambiguous, which is seen once the header fits (R152, R154). -/
theorem decodeForm_ambiguous (hd : dlenFlag L t = false) (hf : finFlag L t = false) :
    decodeForm lay t s = .next (afterResponse s (.fail
      (if 1 + ws + wo ≤ s.port.rem then .ambigLen else .truncHdr))) := by
  obtain ⟨hs, ho⟩ := hw.le_eight hL
  have hheader : headerLength ws wo false = 1 + ws + wo := rfl
  rw [decodeForm_of_typeByteOk hspec hL hw hok, hd, hf, decodeFields_eq _ _ _ _ _ _ hs ho, hheader]
  by_cases hhdr : 1 + ws + wo ≤ s.port.rem
  · rw [if_neg (Nat.not_lt.2 hhdr), if_pos ⟨rfl, rfl⟩, if_pos hhdr]
    rfl
  · rw [if_pos (Nat.not_le.1 hhdr), if_neg hhdr]
    rfl

end

/-! ### The default records -/

theorem layoutLle_wf : layoutLle.wf = true := by decide

theorem layoutLbe_wf : layoutLbe.wf = true := by decide

theorem layoutMod_wf : layoutMod.wf = true := by decide

/-- The widths and the flags of a Legacy type byte (30_encoding.md R67, R70). -/
theorem legacyByte_reads {L : LayoutSpec} {oo ss : BitVec 2} {ws wo : Nat} (hL : L = layoutLle ∨ L = layoutLbe)
    (hss : legacySidTab[ss.toNat]? = some ws) (hoo : legacyOffTab[oo.toNat]? = some wo) (m f d r : Bool) :
    WidthsAre L (legacyByte m f d oo ss r) ws wo ∧ dlenFlag L (legacyByte m f d oo ss r) = d ∧
      finFlag L (legacyByte m f d oo ss r) = f := by
  obtain ⟨hfin, hdlen, hsid, hoff, -⟩ := typeByteFieldsAreRead.1 m f d oo ss r L hL
  rw [WidthsAre, sidWidth, offWidth, hsid, hoff]
  rcases hL with rfl | rfl <;> exact ⟨⟨hss, hoo⟩, hdlen, hfin⟩

/-- The widths and the flags of a Modern type byte (30_encoding.md R69, R71). -/
theorem modernByte_reads {oo ss : BitVec 2} {ws wo : Nat} (hss : modernSidTab[ss.toNat]? = some ws)
    (hoo : modernOffTab[oo.toNat]? = some wo) (pp : BitVec 2) (f d : Bool) :
    WidthsAre layoutMod (modernByte pp f ss oo d) ws wo ∧ dlenFlag layoutMod (modernByte pp f ss oo d) = d ∧
      finFlag layoutMod (modernByte pp f ss oo d) = f := by
  obtain ⟨hfin, hdlen, hsid, hoff, -⟩ := typeByteFieldsAreRead.2 pp f ss oo d
  rw [WidthsAre, sidWidth, offWidth, hsid, hoff]
  exact ⟨⟨hss, hoo⟩, hdlen, hfin⟩

/-! ### The three lengths -/

/-- Settles O29: the X forms have `D = 1`. -/
theorem explicitLength : Obligations.ExplicitLength := by
  refine ⟨fun m f oo ss r s ws wo hss hoo => ⟨fun hspec hok hfits => ?_, fun hspec hok hfits => ?_⟩,
    fun pp f ss oo s ws wo hss hoo hspec hok hfits => ?_⟩
  · obtain ⟨hw, hd, hf⟩ := legacyByte_reads (.inl rfl) hss hoo m f true r
    exact decodeForm_explicit (lay := .lle) hspec layoutLle_wf hw hok hd hf hfits
  · obtain ⟨hw, hd, hf⟩ := legacyByte_reads (.inr rfl) hss hoo m f true r
    exact decodeForm_explicit (lay := .lbe) hspec layoutLbe_wf hw hok hd hf hfits
  · obtain ⟨hw, hd, hf⟩ := modernByte_reads hss hoo pp f true
    exact decodeForm_explicit (lay := .mod) hspec layoutMod_wf hw hok hd hf hfits

/-- Settles O30: the I forms have `D = 0` and `F = 1`. -/
theorem inferredLength : Obligations.InferredLength := by
  refine ⟨fun m oo ss r s ws wo hss hoo hhdr => ⟨fun hspec hok => ?_, fun hspec hok => ?_⟩,
    fun pp ss oo s ws wo hss hoo hhdr hspec hok => ?_⟩
  · obtain ⟨hw, hd, hf⟩ := legacyByte_reads (.inl rfl) hss hoo m true false r
    exact decodeForm_inferred (lay := .lle) hspec layoutLle_wf hw hok hd hf hhdr
  · obtain ⟨hw, hd, hf⟩ := legacyByte_reads (.inr rfl) hss hoo m true false r
    exact decodeForm_inferred (lay := .lbe) hspec layoutLbe_wf hw hok hd hf hhdr
  · obtain ⟨hw, hd, hf⟩ := modernByte_reads hss hoo pp true false
    exact decodeForm_inferred (lay := .mod) hspec layoutMod_wf hw hok hd hf hhdr

/-- Settles O31: the ILL forms have `D = 0` and `F = 0`. -/
theorem ambiguousLengthFails : Obligations.AmbiguousLengthFails := by
  refine ⟨fun m oo ss r s ws wo hss hoo => ⟨fun hspec hok => ?_, fun hspec hok => ?_⟩,
    fun pp ss oo s ws wo hss hoo hspec hok => ?_⟩
  · obtain ⟨hw, hd, hf⟩ := legacyByte_reads (.inl rfl) hss hoo m false false r
    exact decodeForm_ambiguous (lay := .lle) hspec layoutLle_wf hw hok hd hf
  · obtain ⟨hw, hd, hf⟩ := legacyByte_reads (.inr rfl) hss hoo m false false r
    exact decodeForm_ambiguous (lay := .lbe) hspec layoutLbe_wf hw hok hd hf
  · obtain ⟨hw, hd, hf⟩ := modernByte_reads hss hoo pp false false
    exact decodeForm_ambiguous (lay := .mod) hspec layoutMod_wf hw hok hd hf

end Sys2Proof.Machine
end

section
/-! The marker and reserved checks (30_encoding.md R73, R74): which model faults a type byte raises, and under which
policy. -/

namespace Sys2Proof.Machine

/-- Past the checks of the type byte the only model fault is a width above 8 (40_field_width_codec.md R107). -/
theorem badWidth_of_decodeFields_raise {o : ByteOrder} {q : Request} {ws wo : Nat} {f d : Bool} {x : ModelFault}
    (h : decodeFields o q ws wo f d = .error (.raise x)) : ∃ n, x = .badWidth n := by
  by_cases hw : ws ≤ 8 ∧ wo ≤ 8
  · rw [decodeFields_eq o q ws wo f d hw.1 hw.2] at h
    split_ifs at h <;> cases h
  · rw [decodeFields_bad o q ws wo f d (by omega)] at h
    split_ifs at h <;> cases h
    · exact ⟨ws, rfl⟩
    · exact ⟨wo, rfl⟩

/-- The model faults of a type byte, each with the check that raised it. -/
theorem decodeTyped_raise_cases {c : Config} {L : LayoutSpec} {t : Byte} {q : Request} {x : ModelFault}
    (h : decodeTyped c L t q = .error (.raise x)) :
    (x = .notStream t ∧ markerFaults c L t = true) ∨ (x = .reservedBit t ∧ reservedFaults c L t = true) ∨
      ∃ n, x = .badWidth n := by
  unfold decodeTyped at h
  split_ifs at h with hmarker hreserved
  · cases h
    exact .inl ⟨rfl, hmarker⟩
  · cases h
    exact .inr (.inl ⟨rfl, hreserved⟩)
  · split at h
    next => exact .inr (.inr (badWidth_of_decodeFields_raise h))
    next => cases h

/-- A new fault on the record is the one the request ended with. -/
theorem State.raise_of_finish {s t : State} {e : Except Ending Response} {f : ModelFault} (h : s.finish e = .next t)
    (ht : t.faults = f :: s.faults) : e = .error (.raise f) := by
  rcases State.finish_cases h with ⟨r, -, rfl⟩ | ⟨f', he, rfl⟩
  · exact absurd ht.symm (List.cons_ne_self f s.faults)
  · obtain ⟨rfl, -⟩ := List.cons.inj ht
    exact he

/-- A fault that DECODE of a supported version records was raised past its type byte. -/
theorem decodeTyped_of_exec_decode_raise {s t : State} {v : Version} {lay : Layout} {f : ModelFault}
    (hv : Supports s v lay) (h : exec (.decode v) s = .next t) (ht : t.faults = f :: s.faults) :
    decodeTyped s.config (s.config.spec lay) (typeByte s.port) s.port = .error (.raise f) := by
  rw [exec_decode_supported hv, decodeCommon_eq] at h
  have hend := State.raise_of_finish h ht
  split_ifs at hend
  · cases hend
  · exact hend

/-- With a type byte there, DECODE of a supported version is its layout's decoder past that byte. -/
theorem exec_decode_typed {s : State} {v : Version} {lay : Layout} (hv : Supports s v lay) (hrem : 1 ≤ s.port.rem) :
    exec (.decode v) s = s.finish (decodeTyped s.config (s.config.spec lay) (typeByte s.port) s.port) := by
  rw [exec_decode_supported hv, decodeCommon_eq, if_neg (Nat.not_lt.2 hrem)]

/-- A failed marker check ends the request first (R73). -/
theorem decodeTyped_of_markerFaults {c : Config} {L : LayoutSpec} {t : Byte} (q : Request)
    (h : markerFaults c L t = true) : decodeTyped c L t q = .error (.raise (.notStream t)) := if_pos h

/-- A failed reserved check ends a request whose marker check passed (R74). -/
theorem decodeTyped_of_reservedFaults {c : Config} {L : LayoutSpec} {t : Byte} (q : Request)
    (hmarker : ¬ markerFaults c L t = true) (h : reservedFaults c L t = true) :
    decodeTyped c L t q = .error (.raise (.reservedBit t)) := (if_neg hmarker).trans (if_pos h)

/-- The policy `ignore` passes every marker, and any policy passes the required one (R73). -/
theorem not_markerFaults {c : Config} {L : LayoutSpec} {t : Byte}
    (h : c.markerPolicy = .ignore ∨ t &&& L.markerMask = L.markerVal) : ¬ markerFaults c L t = true := by
  rw [markerFaults_iff]
  rintro ⟨hfault, hne⟩
  rcases h with hignore | heq
  · exact absurd (hignore.symm.trans hfault) (by decide)
  · exact hne heq

/-- The policy `ignore` passes every reserved bit (R74). -/
theorem not_reservedFaults {c : Config} {L : LayoutSpec} {t : Byte} (h : c.reservedPolicy = .ignore) :
    ¬ reservedFaults c L t = true := by
  rw [reservedFaults_iff]
  exact fun hfault => absurd (h.symm.trans hfault.1) (by decide)

/-- Settles O36: each check raises its fault in turn, and a fault that a DECODE records names the check that failed. -/
theorem markerAndReservedChecks : Obligations.MarkerAndReservedChecks := by
  intro v s lay hv hrem
  refine ⟨fun hpolicy hmismatch => ?_, fun hmarker hpolicy hbit => ?_, fun t ht => ⟨fun hignore hrec => ?_,
    fun hignore hrec => ?_⟩⟩
  · rw [exec_decode_typed hv hrem, decodeTyped_of_markerFaults _ (markerFaults_iff.2 ⟨hpolicy, hmismatch⟩)]
    rfl
  · rw [exec_decode_typed hv hrem,
      decodeTyped_of_reservedFaults _ (not_markerFaults hmarker) (reservedFaults_iff.2 ⟨hpolicy, hbit⟩)]
    rfl
  · rcases decodeTyped_raise_cases (decodeTyped_of_exec_decode_raise hv ht hrec) with
      ⟨-, hfault⟩ | ⟨hne, -⟩ | ⟨n, hne⟩
    · exact not_markerFaults (.inl hignore) hfault
    · cases hne
    · cases hne
  · rcases decodeTyped_raise_cases (decodeTyped_of_exec_decode_raise hv ht hrec) with
      ⟨hne, -⟩ | ⟨-, hfault⟩ | ⟨n, hne⟩
    · cases hne
    · exact not_reservedFaults hignore hfault
    · cases hne

end Sys2Proof.Machine
end

section
/-! What a codec instruction answers (40_field_width_codec.md R101 to R107): the value of the bytes, the bytes of the
value, or a model fault. -/

namespace Sys2Proof.Machine

/-! ### Reads -/

/-- A codec read answers the value of the bytes on its port, below `256^n` (R101 to R103). -/
theorem codecReadOp_value (o : ByteOrder) {n : BitVec 4} (s : State) (hn : n.toNat ≤ 8) :
    ∃ x, codecReadOp o n s = .next (afterResponse s (.value x)) ∧
      x.toNat = wireValue o s.port.codecBytes 0 n.toNat ∧ x.toNat < 256 ^ n.toNat := by
  have hvalue := toNat_wireValue o s.port.codecBytes 0 n.toNat hn
  have hlt := hvalue.trans_lt (wireValue_lt o s.port.codecBytes 0 n.toNat)
  refine ⟨BitVec.ofNat 64 (wireValue o s.port.codecBytes 0 n.toNat), ?_, hvalue, hlt⟩
  rw [codecReadOp, codecRead_eq, if_neg (Nat.not_lt.2 hn), fieldValue_readN]
  rfl

/-- Settles O42, by the read of each byte order. -/
theorem codecReadValue : Obligations.CodecReadValue :=
  fun _ s hn => ⟨codecReadOp_value .le s hn, codecReadOp_value .be s hn⟩

/-! ### Writes -/

/-- The `k`-th little-endian byte of a value (R105). -/
theorem leBytes_getElem_toNat {v n k : Nat} (h : k < (leBytes v n).length) :
    (leBytes v n)[k].toNat = v / 256 ^ k % 256 := by
  simp [leBytes]

/-- The `k`-th big-endian byte of a value (R106). -/
theorem beBytes_getElem_toNat {v n k : Nat} (h : k < (beBytes v n).length) :
    (beBytes v n)[k].toNat = v / 256 ^ (n - 1 - k) % 256 := by
  simp [beBytes]

/-- A value too large for its count (R105, R106). -/
theorem codecWriteOp_encRange (o : ByteOrder) {n : BitVec 4} {s : State} (hn : n.toNat ≤ 8)
    (hv : 256 ^ n.toNat ≤ s.port.codecValue) :
    codecWriteOp o n s = .next (afterFault s (.encRange s.port.codecValue n.toNat)) := by
  rw [codecWriteOp, codecWrite_eq, if_neg (Nat.not_lt.2 hn), if_pos hv]
  rfl

/-- Settles O43: a value that fits is answered by its bytes in each order, which are its digits to base 256. -/
theorem codecWriteBytes : Obligations.CodecWriteBytes := by
  refine fun n s hn => ⟨fun hv => ⟨?_, ?_⟩,
    fun hv => ⟨codecWriteOp_encRange .le hn hv, codecWriteOp_encRange .be hn hv⟩⟩
  · exact ⟨leBytes s.port.codecValue n.toNat, codecWriteOp_fits .le hn hv, fieldBytes_length .le _ _,
      fun _ => leBytes_getElem_toNat⟩
  · exact ⟨beBytes s.port.codecValue n.toNat, codecWriteOp_fits .be hn hv, fieldBytes_length .be _ _,
      fun _ => beBytes_getElem_toNat⟩

/-! ### The reserved counts -/

theorem codecReadOp_badWidth (o : ByteOrder) {n : BitVec 4} (s : State) (hn : 8 < n.toNat) :
    codecReadOp o n s = .next (afterFault s (.badWidth n.toNat)) := by
  rw [codecReadOp, codecRead_eq, if_pos hn]
  rfl

theorem codecWriteOp_badWidth (o : ByteOrder) {n : BitVec 4} (s : State) (hn : 8 < n.toNat) :
    codecWriteOp o n s = .next (afterFault s (.badWidth n.toNat)) := by
  rw [codecWriteOp, codecWrite_eq, if_pos hn]
  rfl

/-- Settles O44: the count is checked before the bytes and the value (R107). -/
theorem codecReservedCounts : Obligations.CodecReservedCounts :=
  fun _ s hn => ⟨codecReadOp_badWidth .le s hn, codecReadOp_badWidth .be s hn, codecWriteOp_badWidth .le s hn,
    codecWriteOp_badWidth .be s hn⟩

end Sys2Proof.Machine
end

section
/-! Words of the opcode map written out (30_encoding.md R77, R78), and the status codes (60_exceptions.md R200). -/

namespace Sys2Proof.Machine

/-- Settles O16: each word is the encoding of its instruction, which decodes to it. -/
theorem sampleWordsDecode : Obligations.SampleWordsDecode :=
  ⟨decodeOfEncode (.decLleX true true 3 2 false), decodeOfEncode (.decLbeI true 0 0 false),
    decodeOfEncode (.decModI 3 0 0), decodeOfEncode (.illModAmbig 3 0 0), decodeOfEncode (.rsvLayout3 1),
    decodeOfEncode (.fwWrBe 4)⟩

/-- No failure has the code of success (R24, R200). -/
theorem FailKind.code_ne_zero (k : FailKind) : k.code ≠ 0 := by
  cases k <;> decide

/-- Settles O47: a failure's status is its code. -/
theorem statusCodes : Obligations.StatusCodes :=
  ⟨fun _ _ => rfl, rfl, rfl, rfl, fun k h => FailKind.code_ne_zero k (Option.some.inj h)⟩

end Sys2Proof.Machine
end
